-- ==== Sys2Proof/Word.lean ====
section
/-! DEFINITION. The widths of the block's data (00_scope.md R6, R8): the types of a slot, a VALUE, a PIN, an NBITS field and a
command word. -/

namespace Sys2Proof

/-- One slot of the GPIO array: SLOT_W = 8 bits (R6, R27). -/
abbrev Byte := BitVec 8

/-- The VALUE field and RESULT: VALUE_W = 32 bits (R6). -/
abbrev Value := BitVec 32

/-- The PIN field and the `mem_addr` port: PIN_W = 16 bits (R6, R29). -/
abbrev Pin := BitVec 16

/-- The NBITS field: NBITS_W = 8 bits (R6). -/
abbrev Width := BitVec 8

/-- The command word CMD: 64 bits (R55). -/
abbrev Cmd := BitVec 64

end Sys2Proof
end

