-- ==== Sys2Proof/Syntax.lean ====
section
/-! DEFINITION. The four commands of the block (00_scope.md R3, R114), one constructor per row of spec/opcode_table.json, with the
operands of the assembler form (30_encoding.md R68). -/

namespace Sys2Proof

/-- A command whose reserved field is zero. Every NBITS and PIN value is a command: the checks of R103 and R104 are part of what the
command does, not of its form (R64). -/
inductive Instr where
  /-- `ENCU value, pin, nbits`: encode unsigned (R82). -/
  | encu (value : Value) (pin : Pin) (nbits : Width)
  /-- `DECU pin, nbits`: decode unsigned (R92); its VALUE field is ignored (R62). -/
  | decu (pin : Pin) (nbits : Width)
  /-- `ENCS value, pin, nbits`: encode signed (R84). -/
  | encs (value : Value) (pin : Pin) (nbits : Width)
  /-- `DECS pin, nbits`: decode signed (R94); its VALUE field is ignored (R62). -/
  | decs (pin : Pin) (nbits : Width)
  deriving DecidableEq, Repr

/-- The window start `p` (R59, R63). -/
def Instr.pin : Instr → Pin
  | .encu _ p _ => p
  | .decu p _ => p
  | .encs _ p _ => p
  | .decs p _ => p

/-- The window width `n` (R58, R63). -/
def Instr.nbits : Instr → Width
  | .encu _ _ n => n
  | .decu _ n => n
  | .encs _ _ n => n
  | .decs _ n => n

/-- OP[0] = 0: the command encodes (R56). -/
def Instr.isEncoder : Instr → Bool
  | .encu _ _ _ => true
  | .decu _ _ => false
  | .encs _ _ _ => true
  | .decs _ _ => false

end Sys2Proof
end

