-- ==== Sys2Proof/Decode.lean ====
section
/-! DEFINITION. Decoding a 64-bit command word and encoding a command (30_encoding.md R55, R56, R64, R66; spec/opcode_table.json). The word
is moved in parallel and has no byte order (R42). -/

namespace Sys2Proof

/-- Why a word is no command. -/
inductive Reject where
  /-- RSVD = CMD[7:2] is not zero (R57, R64): answered with ERR_RSVD (R102). -/
  | reserved (rsvd : BitVec 6)
  deriving DecidableEq, Repr

/-- OP = CMD[1:0] (R55). -/
def cmdOp (w : Cmd) : BitVec 2 := w.extractLsb' 0 2

/-- RSVD = CMD[7:2] (R55, R57). -/
def cmdRsvd (w : Cmd) : BitVec 6 := w.extractLsb' 2 6

/-- NBITS = CMD[15:8] (R55, R58). -/
def cmdNbits (w : Cmd) : Width := w.extractLsb' 8 8

/-- PIN = CMD[31:16] (R55, R59). -/
def cmdPin (w : Cmd) : Pin := w.extractLsb' 16 16

/-- VALUE = CMD[63:32] (R55, R60, R61). -/
def cmdValue (w : Cmd) : Value := w.extractLsb' 32 32

/-- OP[0] = 0 is encode, 1 is decode (R56). -/
def cmdEncodes (w : Cmd) : Bool := !(cmdOp w).getLsbD 0

/-- OP[1] = 1 is signed (R56). -/
def cmdSigned (w : Cmd) : Bool := (cmdOp w).getLsbD 1

/-- The operation of a word: selected by CMD[1:0], with RSVD zero (R64). Total: a word is one of the four commands, or rejected with its
reserved field. -/
def decode (w : Cmd) : Except Reject Instr :=
  if cmdRsvd w ≠ 0#6 then .error (.reserved (cmdRsvd w))
  else match cmdEncodes w, cmdSigned w with
    | true, false => .ok (.encu (cmdValue w) (cmdPin w) (cmdNbits w))
    | false, false => .ok (.decu (cmdPin w) (cmdNbits w))
    | true, true => .ok (.encs (cmdValue w) (cmdPin w) (cmdNbits w))
    | false, true => .ok (.decs (cmdPin w) (cmdNbits w))

/-- The packed word of R55 with RSVD = 0. -/
def packCmd (value : Value) (pin : Pin) (nbits : Width) (op : BitVec 2) : Cmd :=
  value ++ (pin ++ (nbits ++ (0#6 ++ op)))

/-- The word a command assembles to: RSVD = 0, and VALUE = 0 for the decoders (R56, R68). -/
def encode : Instr → Cmd
  | .encu v p n => packCmd v p n 0b00#2
  | .decu p n => packCmd 0#32 p n 0b01#2
  | .encs v p n => packCmd v p n 0b10#2
  | .decs p n => packCmd 0#32 p n 0b11#2

/-- What the decoder reads from an instruction of `nbits` bits whose bits are `w`; the bits above them are zero. No command is longer than
64 bits (R66). -/
def decodeTableWord (nbits w : Nat) : Option Instr :=
  if nbits ≤ 64 then
    match decode (BitVec.ofNat 64 (w % 2 ^ nbits)) with
    | .ok i => some i
    | .error _ => none
  else none

end Sys2Proof
end

