-- ==== Sys2Proof/Config.lean ====
section
/-! DEFINITION. The configuration of a block (00_scope.md R6, R7; 10_state.md R25): the two parameters that the spec leaves to an
implementation. There is no uninterpreted constant in this model: every choice the spec leaves open at run time is read from the
schedule in State, so a statement over all states is a statement over all choices (log entry 6). -/

namespace Sys2Proof

/-- The static parameter set of R6: fixed for the block's life (R25, R27). -/
structure Params where
  /-- MAX_BITS, the largest legal window width. -/
  maxBits  : Nat
  /-- ARRAY_LEN, the number of slots of the GPIO array. -/
  arrayLen : Nat
  deriving DecidableEq, Repr

/-- The admissible values of R6: 16 ≤ MAX_BITS ≤ 32 and 1 ≤ ARRAY_LEN ≤ 65536. -/
abbrev Params.Admissible (P : Params) : Prop :=
  16 ≤ P.maxBits ∧ P.maxBits ≤ 32 ∧ 1 ≤ P.arrayLen ∧ P.arrayLen ≤ 65536

/-- The parameters State.reset is built with. MAX_BITS = 32 is R6's reference value; ARRAY_LEN is OPEN in R6, and 65536 (the largest,
in which every PIN names a slot) is a DESIGN CHOICE, log entry 1. -/
def Params.reference : Params := { maxBits := 32, arrayLen := 65536 }

end Sys2Proof
end

