-- ==== Sys2Proof/Machine/State.lean ====
section
/-! DEFINITION. The machine's state as plain data: the block's interface state (10_state.md R30, R32), its input ports, the GPIO array
(R27), the configuration (R6, R25), and the environment's schedule; the reasons a step can stop; the state after reset (R33-R36). -/

namespace Sys2Proof.Machine

/-- STATUS (60_exceptions.md R101); its 2-bit code is `statusCode`. -/
inductive Status where
  /-- The command passed every check and was performed. -/
  | ok
  /-- CMD[7:2] is not zero (R102). -/
  | errRsvd
  /-- NBITS is 0 or greater than MAX_BITS (R103). -/
  | errBits
  /-- PIN + NBITS is greater than ARRAY_LEN (R104). -/
  | errWindow
  deriving DecidableEq, Repr

/-- A response: the two fields of RESP (30_encoding.md R67). -/
structure Response where
  status : Status
  result : Value
  deriving DecidableEq, Repr

/-- The slot request on the memory port while mem_req = 1 (R29): the constructor is mem_we, `addr` is mem_addr, `data` is mem_wdata. -/
inductive MemRequest where
  /-- mem_we = 0: a SlotRead (R10). -/
  | read (addr : Pin)
  /-- mem_we = 1: a SlotWrite (R10). -/
  | write (addr : Pin) (data : Byte)
  deriving DecidableEq, Repr

/-- A command in progress (busy = 1, R30), with the hidden state of R32: which of its slot accesses have not been performed yet. -/
structure Progress where
  /-- The accepted command word. -/
  word    : Cmd
  /-- The slots of the window still to be accessed; the order is open (R51). -/
  pending : List Nat
  /-- The integer `u` a decoder has summed so far (R92, R94). -/
  acc     : Nat
  deriving DecidableEq, Repr

/-- One move of one agent (R20). The schedule in State says which comes next. -/
inductive Event where
  /-- The caller drives cmd_valid = 1 and cmd = `w` (R29). If another word was presented and not yet transferred, both may be
  accepted (R126). -/
  | present (w : Cmd)
  /-- The caller drives cmd_valid = 0: nothing is presented, so no transfer can take place (R29). -/
  | withdraw
  /-- The command transfer and the whole command as ONE step of the block (R31): nobody else moves before the response. So it is if the array
  holds mem_ack = 1; if it withholds, the transfer alone takes place, as for `accept` (R129). `choice` selects the word accepted among those
  presented (R126): 0 is `cmd`. -/
  | transact (choice : Nat)
  /-- The command transfer alone: from here the command goes access by access (R32, D1). `choice` as for `transact`. -/
  | accept (choice : Nat)
  /-- The block raises mem_req for the slot `k`, one of those it still has to access (R29, R51). -/
  | request (k : Nat)
  /-- mem_ack = 1 at an edge: the array performs the requested access (R29). -/
  | ack
  /-- The block produces the response of a command whose accesses have all been performed (R31, R50). -/
  | finish
  /-- resp_ready = 1 at an edge: the response transfer (R29). -/
  | take
  /-- The array's side holds mem_ack at `level` from here: 1 acknowledges every request at the next edge, 0 withholds (R29, R121a, R130). -/
  | setAck (level : Bool)
  /-- The caller holds resp_ready at `level` from here: 1 takes every response at the next edge, 0 lets it wait (R29, R130). -/
  | setReady (level : Bool)
  /-- The caller reads resp_status and resp_result (R35). -/
  | sample
  /-- Another agent writes `b` to the slot `k` (R20c, R53). -/
  | otherWrite (k : Nat) (b : Byte)
  /-- Another agent reads the slot `k` (R20c, R53c). -/
  | otherRead (k : Nat)
  /-- A rising edge with rst = 1 (R117); rst stays 1 until `resetLow`. -/
  | resetHigh
  /-- rst = 0 from here (R34, R120). -/
  | resetLow
  deriving DecidableEq, Repr

/-- The GPIO array's contents: (slot index, value) pairs, indices strictly rising, no value equal to what an unlisted slot reads as. -/
abbrev Memory := List Host.Cell

/-- What a slot that nothing has listed reads as. The spec gives the array's contents no value: they are an input of the launch (R36, I7),
which is the field `array`. DESIGN CHOICE, unsafe, log entry 2. -/
def unlistedSlot : Byte := 0x00#8

/-- The whole state: the block, its ports, the array, the configuration and the environment's schedule. -/
structure State where
  /-- MAX_BITS and ARRAY_LEN (R6); no step changes them (R25). -/
  params     : Params
  /-- The GPIO array (R27), owned by the caller. -/
  array      : Memory
  /-- The level of `rst` (R29, R117). -/
  rst        : Bool
  /-- The level of `cmd_valid` (R29). -/
  cmdValid   : Bool
  /-- The word on `cmd` (R29). -/
  cmd        : Cmd
  /-- The words that were on `cmd` earlier while cmd_valid = 1 with no transfer, newest first (R126). -/
  cmdEarlier : List Cmd
  /-- The level at which the array's side holds `mem_ack` (R29, R121a). -/
  memAck     : Bool
  /-- The level at which the caller holds `resp_ready` (R29). -/
  respReady  : Bool
  /-- The command in progress; `busy` = 1 exactly when there is one (R30). -/
  current    : Option Progress
  /-- The slot request; `mem_req` = 1 exactly when there is one (R29). -/
  memReq     : Option MemRequest
  /-- The response held on resp_status and resp_result; `resp_valid` = 1 exactly when there is one (R30, R35). -/
  resp       : Option Response
  /-- The responses the caller has taken, oldest first (R37). -/
  taken      : List Response
  /-- What other agents have read, oldest first (R53c). -/
  otherReads : List Host.Cell
  /-- Some response of the run had a non-OK status: the model's record of R109 and I13, which no reset of the block takes back. No part of
  the block, which records nothing (R108). -/
  runFaulted : Bool
  /-- The moves to come. -/
  schedule   : List Event
  deriving DecidableEq, Repr

/-- Why the machine stops with a fault. -/
inductive Fault where
  /-- An access to the slot `k` ≥ ARRAY_LEN, which does not exist (R38, R49). Raised by `slotRead` and `slotWrite`. Only another agent's
  access can meet it (an obligation says so). Safe: the model stops where the environment breaks R27. -/
  | slotOutOfRange (k : Nat)
  deriving DecidableEq, Repr

/-- Why a step is refused. -/
inductive Refusal where
  /-- An instruction without a meaning. Raised by no arm of `exec`. Safe. -/
  | notModelled (mnemonic : String)
  /-- resp_status or resp_result is read while no response is held (R35, I8). Raised by `sampleStep`. Safe: the spec gives no value. -/
  | respNotValid
  deriving DecidableEq, Repr

/-- The machine right after reset: no command in progress (R33), no response held and mem_req = 0 (R34, R35), rst = 0. The parameters are
log entry 1, the array log entry 2 (reset does not touch it, R36), the input ports log entry 5. -/
def State.reset : State where
  params := Params.reference
  array := []
  rst := false
  cmdValid := false
  cmd := 0
  cmdEarlier := []
  memAck := true
  respReady := false
  current := none
  memReq := none
  resp := none
  taken := []
  otherReads := []
  runFaulted := false
  schedule := []

end Sys2Proof.Machine
end

