-- ==== Sys2Proof/Machine/Flags.lean ====
section
/-! DEFINITION. The block has no flags (10_state.md R24): the outcome of a command is its STATUS. Here are the status codes (60_exceptions.md
R101), the checks in their order (R102-R106) and the response word (30_encoding.md R67). -/

namespace Sys2Proof.Machine

/-- The 2-bit code of a status (R101). -/
def statusCode : Status → BitVec 2
  | .ok => 0
  | .errRsvd => 1
  | .errBits => 2
  | .errWindow => 3

/-- The response word RESP: RESULT in [31:0], STATUS in [33:32] (R67). -/
def respWord (r : Response) : BitVec 34 := statusCode r.status ++ r.result

/-- The checks of the width and the window, in that order (R103, R104, R106); the sum has no wrap-around (R40). -/
def checkArgs (P : Params) (p n : Nat) : Status :=
  if n = 0 ∨ P.maxBits < n then .errBits
  else if P.arrayLen < p + n then .errWindow
  else .ok

/-- Check(cmd): the reserved field first, then the width, then the window (R106). -/
def checkWord (P : Params) (w : Cmd) : Status :=
  if cmdRsvd w ≠ 0#6 then .errRsvd else checkArgs P (cmdPin w).toNat (cmdNbits w).toNat

end Sys2Proof.Machine
end

