-- ==== Sys2Proof/Machine/Operands.lean ====
section
/-! DEFINITION. The operand forms: the window of slots (20_memory.md R40, R41), the offset_binary_signed_converter (40_offset_binary.md), the
slot convention (41_encode.md R81; 00_scope.md R12) and the extensions of R9. -/

namespace Sys2Proof.Machine

/-- The window of (p, n): the slots p, p+1, ..., p+n-1 (R40). -/
def window (p n : Nat) : List Nat := List.range' p n

/-- SLOT_ON (R6). -/
def slotOn : Byte := 0xFF#8

/-- SLOT_OFF (R6). -/
def slotOff : Byte := 0x00#8

/-- SlotByte(b): what an encoder writes for one bit (R81). -/
def slotByte (b : Bool) : Byte := if b then slotOn else slotOff

/-- truthy(b): the bit a decoder reads from a slot value, 1 for every nonzero value (R12, R91). -/
def truthy (b : Byte) : Bool := b != 0#8

/-- The weight of the slot `k` in the window (p, n): slot p+i carries 2^(n-1-i) (R91). -/
def slotWeight (p n k : Nat) : Nat := 2 ^ (n - 1 - (k - p))

/-- The bit of the pattern `u` held by the slot `k` of the window (p, n): slot p+n-1-i holds bit i (R41). -/
def slotBit (p n : Nat) (u : Value) (k : Nat) : Bool := u.getLsbD (p + n - 1 - k)

/-- BIAS(n) = 2^(n-1) (R73). -/
def bias (n : Nat) : Nat := 2 ^ (n - 1)

/-- ToOffset(v, n) = (v + BIAS(n)) mod 2^32 (R75); the carry out of bit 31 is discarded. -/
def toOffset (v : Value) (n : Nat) : Value := v + BitVec.ofNat 32 (bias n)

/-- FromOffset(u, n) = (u - BIAS(n)) mod 2^32 (R76). -/
def fromOffset (u n : Nat) : Value := BitVec.ofInt 32 ((u : Int) - (bias n : Int))

/-- zext_32(u) (R9). -/
def zext32 (u : Nat) : Value := BitVec.ofNat 32 u

/-- sext_32_from_n(p) (R9): bits 31..n equal to p[n-1], bits n-1..0 those of p. -/
def sext32 (n : Nat) (p : Value) : Value := (p.setWidth n).signExtend 32

end Sys2Proof.Machine
end

