-- ==== Sys2Proof/Machine/Ops.lean ====
section
/-! DEFINITION. The named operations: the array as a canonical list, the slot primitives SlotRead and SlotWrite (00_scope.md R10), and
responding (R11). The block has no trap entry and no return from one (60_exceptions.md R110, R111): a check that fails ends the command
by `raiseStatus`, the one shared operation for that. -/

namespace Sys2Proof.Machine

/-- The value of the slot `k`. -/
def memRead : Memory → Nat → Byte
  | [], _ => unlistedSlot
  | (a, b) :: m, k => if a = k then b else memRead m k

/-- `m` without the slot `k`. -/
def memErase (m : Memory) (k : Nat) : Memory :=
  m.filter fun c => decide (c.1 ≠ k)

/-- `(k, b)` put before the first greater index. -/
def memInsert (k : Nat) (b : Byte) : Memory → Memory
  | [] => [(k, b)]
  | (a, c) :: m => if k < a then (k, b) :: (a, c) :: m else (a, c) :: memInsert k b m

/-- `m` with the slot `k` holding `b`, in canonical form if `m` is. -/
def memWrite (m : Memory) (k : Nat) (b : Byte) : Memory :=
  if b = unlistedSlot then memErase m k else memInsert k b (memErase m k)

/-- The canonical form: indices strictly rising, no entry equal to what an unlisted slot reads as. -/
abbrev Memory.wf (m : Memory) : Prop :=
  (m.map Prod.fst).Pairwise (· < ·) ∧ ∀ c ∈ m, c.2 ≠ unlistedSlot

/-- SlotRead(k) (R10): one read of one slot, without side effect (R48). A slot at or above ARRAY_LEN does not exist (R38). -/
def slotRead (s : State) (k : Nat) : Except Fault Byte :=
  if k < s.params.arrayLen then .ok (memRead s.array k) else .error (.slotOutOfRange k)

/-- SlotWrite(k, b) (R10): one write of one whole slot (R43). -/
def slotWrite (s : State) (k : Nat) (b : Byte) : Except Fault State :=
  if k < s.params.arrayLen then .ok { s with array := memWrite s.array k b } else .error (.slotOutOfRange k)

/-- The record of the run after a response with status `st` (60_exceptions.md R109). -/
def recordFault (st : Status) (before : Bool) : Bool :=
  match st with
  | .ok => before
  | .errRsvd => true
  | .errBits => true
  | .errWindow => true

/-- respond(status, result) (R11, R31): the command is over, its response is held, the slot port is idle; a non-OK status is recorded as a
fault of the run (R109). -/
def respond (st : Status) (result : Value) (s : State) : State :=
  { s with
    current := none
    memReq := none
    resp := some { status := st, result := result }
    runFaulted := recordFault st s.runFaulted }

/-- raise Status(code) (R11): the command ends with STATUS = `code` and RESULT = 0. -/
def raiseStatus (code : Status) (s : State) : State := respond code 0#32 s

end Sys2Proof.Machine
end

