-- ==== Sys2Proof/Machine/Decoder.lean ====
section
/-! DEFINITION. The sub-block bit_window_decoder (00_scope.md R2b): DECU and DECS (42_decode.md R91-R96). -/

namespace Sys2Proof.Machine

/-- The sum over the first `i` slots of the window: slot p+i adds 2^(n-1-i) if it is nonzero (R92). -/
def decodeWindow (p n : Nat) (s : State) : Nat → Except Fault Nat
  | 0 => .ok 0
  | i + 1 =>
    match decodeWindow p n s i, slotRead s (p + i) with
    | .ok u, .ok b => .ok (if truthy b then u + slotWeight p n (p + i) else u)
    | .error f, _ => .error f
    | .ok _, .error f => .error f

/-- A decode command whose RESULT is `conv u` (R92, R94): the checks, one read of each slot of the window, the response. -/
def runDecode (p n : Nat) (conv : Nat → Value) (s : State) : Host.Outcome State Fault Refusal :=
  match checkArgs s.params p n with
  | .ok =>
    match decodeWindow p n s n with
    | .ok u => .next (respond .ok (conv u) s)
    | .error f => .fault f
  | code => .next (raiseStatus code s)

/-- DECU (R92): RESULT = zext_32(u). -/
def execDecu (pin : Pin) (nbits : Width) (s : State) : Host.Outcome State Fault Refusal :=
  runDecode pin.toNat nbits.toNat zext32 s

/-- DECS (R94): RESULT = FromOffset(u, n). -/
def execDecs (pin : Pin) (nbits : Width) (s : State) : Host.Outcome State Fault Refusal :=
  runDecode pin.toNat nbits.toNat (fun u => fromOffset u nbits.toNat) s

end Sys2Proof.Machine
end

