-- ==== Sys2Proof/Machine/Encoder.lean ====
section
/-! DEFINITION. The sub-block bit_window_encoder (00_scope.md R2a): ENCU and ENCS (41_encode.md R81-R90). -/

namespace Sys2Proof.Machine

/-- The writes of the bits i-1, ..., 0 of `u`: bit i goes to slot (p+n-1)-i (R82). The order is of no consequence inside one
indivisible step (R51). -/
def encodeWindow (p n : Nat) (u : Value) : Nat → State → Except Fault State
  | 0, s => .ok s
  | i + 1, s =>
    match slotWrite s (p + n - 1 - i) (slotByte (u.getLsbD i)) with
    | .ok t => encodeWindow p n u i t
    | .error f => .error f

/-- An encode command whose pattern is `u` (R82, R84): the checks, one write to each slot of the window, the response (OK, 0). -/
def runEncode (p n : Nat) (u : Value) (s : State) : Host.Outcome State Fault Refusal :=
  match checkArgs s.params p n with
  | .ok =>
    match encodeWindow p n u n s with
    | .ok t => .next (respond .ok 0#32 t)
    | .error f => .fault f
  | code => .next (raiseStatus code s)

/-- ENCU (R82, R83): the pattern is VALUE itself. -/
def execEncu (value : Value) (pin : Pin) (nbits : Width) (s : State) : Host.Outcome State Fault Refusal :=
  runEncode pin.toNat nbits.toNat value s

/-- ENCS (R84, R85): the pattern is ToOffset(VALUE, n). -/
def execEncs (value : Value) (pin : Pin) (nbits : Width) (s : State) : Host.Outcome State Fault Refusal :=
  runEncode pin.toNat nbits.toNat (toOffset value nbits.toNat) s

end Sys2Proof.Machine
end

