-- ==== Sys2Proof/Machine/Dispatch.lean ====
section
/-! DEFINITION. One arm per command: the whole command as one step of the block (10_state.md R31). -/

namespace Sys2Proof.Machine

def exec (i : Instr) (s : State) : Host.Outcome State Fault Refusal :=
  match i with
  | .encu value pin nbits => Sys2Proof.Machine.execEncu value pin nbits s
  | .decu pin nbits => Sys2Proof.Machine.execDecu pin nbits s
  | .encs value pin nbits => Sys2Proof.Machine.execEncs value pin nbits s
  | .decs pin nbits => Sys2Proof.Machine.execDecs pin nbits s

end Sys2Proof.Machine
end

