-- ==== Sys2Proof/Machine/Interface.lean ====
section
/-! DEFINITION. The block's ports and what one event does (10_state.md R29-R34; 20_memory.md R50, R51, R53; 70_reset_and_hazards.md R117, R118,
R125, R126, R129). An event whose condition does not hold changes nothing: the transfer or access has not happened. -/

namespace Sys2Proof.Machine

/-- busy (R30). -/
def busy (s : State) : Bool := s.current.isSome

/-- resp_valid (R30). -/
def respValid (s : State) : Bool := s.resp.isSome

/-- cmd_ready = (busy = 0) and (resp_valid = 0) and (rst = 0) (R30). -/
def cmdReady (s : State) : Bool := !busy s && !respValid s && !s.rst

/-- A word is presented and the block can accept it: the command transfer takes place (R29). -/
def transferEnabled (s : State) : Bool := s.cmdValid && cmdReady s

/-- The word the transfer moves: `cmd`, or one that was on the port earlier (R126). -/
def chosenWord (s : State) : Nat → Cmd
  | 0 => s.cmd
  | i + 1 => s.cmdEarlier.getD i s.cmd

/-- The caller's side after the transfer: the word is no longer presented. -/
def transferred (s : State) : State := { s with cmdValid := false, cmdEarlier := [] }

/-- The caller drives cmd_valid = 1 and cmd = `w`; a word that was presented and is now replaced stays acceptable (R126). -/
def presentStep (w : Cmd) (s : State) : State :=
  if s.cmdValid && s.cmd != w then { s with cmd := w, cmdEarlier := s.cmd :: s.cmdEarlier }
  else { s with cmdValid := true, cmd := w }

/-- The caller drives cmd_valid = 0 (R29). -/
def withdrawStep (s : State) : State := { s with cmdValid := false, cmdEarlier := [] }

/-- The whole command `w` as one step (R31): a word with RSVD ≠ 0 is no operation and is answered ERR_RSVD (R64, R102). -/
def performWord (w : Cmd) (s : State) : Host.Outcome State Fault Refusal :=
  match decode w with
  | .ok i => exec i s
  | .error (.reserved _) => .next (raiseStatus .errRsvd s)

/-- A command just accepted (R31): its checks decide whether it has slots to access (R105). -/
def startProgress (P : Params) (w : Cmd) : Progress where
  word := w
  pending := if checkWord P w = .ok then window (cmdPin w).toNat (cmdNbits w).toNat else []
  acc := 0

/-- The event `accept`: the transfer alone; busy becomes 1 (R31). -/
def acceptStep (choice : Nat) (s : State) : State :=
  if transferEnabled s then
    { transferred s with current := some (startProgress s.params (chosenWord s choice)) }
  else s

/-- The event `transact`: the transfer, if it takes place, and with an array that acknowledges every access the whole command (R31). An array
that withholds leaves the command in progress after the transfer: no response without its acknowledgements (R129). -/
def transactStep (choice : Nat) (s : State) : Host.Outcome State Fault Refusal :=
  if transferEnabled s && s.memAck then performWord (chosenWord s choice) (transferred s) else .next (acceptStep choice s)

/-- The pattern an encode word stores: VALUE, or ToOffset(VALUE, n) if it is signed (R82, R84). -/
def wordPattern (w : Cmd) : Value :=
  if cmdSigned w then toOffset (cmdValue w) (cmdNbits w).toNat else cmdValue w

/-- The access the command `w` makes to the slot `k` of its window: encoders write, decoders read (R45, R46). -/
def requestFor (w : Cmd) (k : Nat) : MemRequest :=
  if cmdEncodes w then
    .write (BitVec.ofNat 16 k) (slotByte (slotBit (cmdPin w).toNat (cmdNbits w).toNat (wordPattern w) k))
  else .read (BitVec.ofNat 16 k)

/-- The event `request k`: mem_req rises for a slot not yet accessed, if no request is up (R29, R51). -/
def requestStep (k : Nat) (s : State) : State :=
  match s.current, s.memReq with
  | some c, none => if k ∈ c.pending then { s with memReq := some (requestFor c.word k) } else s
  | _, _ => s

/-- The command in progress after its access to the slot `k`, which read `b` if it was a read (R92, R94). -/
def accessed (c : Progress) (k : Nat) (b : Byte) : Progress where
  word := c.word
  pending := c.pending.erase k
  acc := if truthy b then c.acc + slotWeight (cmdPin c.word).toNat (cmdNbits c.word).toNat k else c.acc

/-- The event `ack`: the array performs the requested access at this edge (R29). mem_req falls with it, also if another access is owed, whose
request is raised later: DESIGN CHOICE, log entry 17 (R29 does not say whether mem_req stays 1 from one access to the next). -/
def ackStep (s : State) : Host.Outcome State Fault Refusal :=
  match s.current, s.memReq with
  | some c, some (.read a) =>
    match slotRead s a.toNat with
    | .ok b => .next { s with current := some (accessed c a.toNat b), memReq := none }
    | .error f => .fault f
  | some c, some (.write a d) =>
    match slotWrite s a.toNat d with
    | .ok t => .next { t with current := some (accessed c a.toNat 0#8), memReq := none }
    | .error f => .fault f
  | _, _ => .next s

/-- RESULT of a command whose accesses are over: the decoders' value, else 0 (R67, R89, R105). -/
def wordResult (P : Params) (c : Progress) : Value :=
  if checkWord P c.word = .ok ∧ cmdEncodes c.word = false then
    if cmdSigned c.word then fromOffset c.acc (cmdNbits c.word).toNat else zext32 c.acc
  else 0#32

/-- The event `finish`: the response, once every access has been performed; never while one is pending or unacknowledged (R50, R129). -/
def finishStep (s : State) : State :=
  match s.current, s.memReq with
  | some c, none => if c.pending = [] then respond (checkWord s.params c.word) (wordResult s.params c) s else s
  | _, _ => s

/-- The event `take`: the response transfer, if a response is held (R29). -/
def takeStep (s : State) : State :=
  match s.resp with
  | some r => { s with resp := none, taken := s.taken ++ [r] }
  | none => s

/-- The array's side drives mem_ack = `level` (R29). -/
def setAckStep (level : Bool) (s : State) : State := { s with memAck := level }

/-- The caller drives resp_ready = `level` (R29). -/
def setReadyStep (level : Bool) (s : State) : State := { s with respReady := level }

/-- The event `sample`: reading the response ports; refused while no response is held, where they have no value (R35, I8). -/
def sampleStep (s : State) : Host.Outcome State Fault Refusal :=
  match s.resp with
  | some _ => .next s
  | none => .refused .respNotValid

/-- Another agent's write of one slot (R20c, R48, R53). -/
def otherWriteStep (k : Nat) (b : Byte) (s : State) : Host.Outcome State Fault Refusal :=
  match slotWrite s k b with
  | .ok t => .next t
  | .error f => .fault f

/-- Another agent's read of one slot (R20c, R48, R53c). -/
def otherReadStep (k : Nat) (s : State) : Host.Outcome State Fault Refusal :=
  match slotRead s k with
  | .ok b => .next { s with otherReads := s.otherReads ++ [(k, b)] }
  | .error f => .fault f

/-- A rising edge with rst = 1: busy, resp_valid and mem_req become 0 (R117); a command in progress is abandoned and a held response is
lost (R118), but stays on the record of the run (R109); no slot is touched (R119). -/
def resetStep (s : State) : State :=
  { s with rst := true, current := none, memReq := none, resp := none }

/-- rst falls (R34, R120). -/
def resetLowStep (s : State) : State := { s with rst := false }

/-- What one event does. -/
def runEvent (e : Event) (s : State) : Host.Outcome State Fault Refusal :=
  match e with
  | .present w => .next (presentStep w s)
  | .withdraw => .next (withdrawStep s)
  | .transact choice => transactStep choice s
  | .accept choice => .next (acceptStep choice s)
  | .request k => .next (requestStep k s)
  | .ack => ackStep s
  | .finish => .next (finishStep s)
  | .take => .next (takeStep s)
  | .setAck level => .next (setAckStep level s)
  | .setReady level => .next (setReadyStep level s)
  | .sample => sampleStep s
  | .otherWrite k b => otherWriteStep k b s
  | .otherRead k => otherReadStep k s
  | .resetHigh => .next (resetStep s)
  | .resetLow => .next (resetLowStep s)

/-- The block's own move while the command `c` is in progress (R31): with a request up, the access if the array acknowledges it (R29), else
nothing (R130); with an access still to make, its request (the first of the list: an order nobody else can see, log entry 6); else the
response (R129). -/
def progressStep (c : Progress) (s : State) : Host.Outcome State Fault Refusal :=
  match s.memReq, c.pending with
  | some _, _ => if s.memAck then ackStep s else .next s
  | none, k :: _ => .next (requestStep k s)
  | none, [] => .next (finishStep s)

/-- A clock edge with no event scheduled: in reset nothing happens (R117); a command in progress goes on; a held response is taken if
resp_ready = 1 and waits else (R29, R130); a presented word is accepted (R120), and performed as one step (R31) by an array that acknowledges
every access, while an array that withholds leaves it in progress (R129). If the caller has changed its word, the one accepted at such an edge
is the current `cmd`: DESIGN CHOICE, log entry 18 (R126 allows either, and the events `transact` and `accept` take any). -/
def idleStep (s : State) : Host.Outcome State Fault Refusal :=
  if s.rst then .next s
  else
    match s.current, s.resp with
    | some c, _ => progressStep c s
    | none, some _ => .next (if s.respReady then takeStep s else s)
    | none, none => transactStep 0 s

end Sys2Proof.Machine
end

