-- ==== Sys2Proof/Machine/Step.lean ====
section
/-! DEFINITION. One step: the next event of the schedule, or with none left a clock edge at which the block moves on its own (log entry 6). -/

namespace Sys2Proof.Machine

/-- One step of the machine: a next state, a fault or a refusal. -/
def step (s : State) : Host.Outcome State Fault Refusal :=
  match s.schedule with
  | [] => idleStep s
  | e :: rest => runEvent e { s with schedule := rest }

/-- `s` with the command word `w` on the command port of a block that is ready for it, an array that acknowledges, and the command's transaction
as the next event (log entry 8).
The block fetches nothing (R23): this is where step takes its next instruction from. -/
def State.withFetchWord (s : State) (nbits w : Nat) : State :=
  { s with
    rst := false
    cmdValid := true
    cmd := BitVec.ofNat 64 (w % 2 ^ nbits)
    cmdEarlier := []
    memAck := true
    current := none
    memReq := none
    resp := none
    schedule := .transact 0 :: s.schedule }

end Sys2Proof.Machine
end

