-- ==== Sys2Proof/Machine/Assembler.lean ====
section
/-! DEFINITION. The assembler's spellings of command words (30_encoding.md R68-R71): operands as mathematical integers, the pseudo-instructions
CLRW and SETW, the directive .cmd, and the text form. It is also the transcriber of the source's calls: a call's value, pinIndex and bits
are the operands, and a call that no command word spells is refused by name (R59, row I5). Not part of the step: no command word depends
on it. Points of the text form the spec does not fix: log entry 12. -/

namespace Sys2Proof.Machine

/-- One line of assembly, operands not yet checked (R68-R71). -/
inductive AsmLine where
  | encu (value pin nbits : Int)
  | encs (value pin nbits : Int)
  | decu (pin nbits : Int)
  | decs (pin nbits : Int)
  /-- `CLRW pin, nbits` = `ENCU 0, pin, nbits` (R70). -/
  | clrw (pin nbits : Int)
  /-- `SETW pin, nbits` = `ENCU 0xFFFFFFFF, pin, nbits` (R71). -/
  | setw (pin nbits : Int)
  /-- `.cmd` with a raw 64-bit word (R69). -/
  | raw (word : Nat)
  deriving DecidableEq, Repr

/-- Why the assembler refuses a line. -/
inductive AsmError where
  /-- value outside -2^31 .. 2^32-1 (R69). -/
  | valueRange (v : Int)
  /-- A negative pin: the source's unsupported pinIndex < 0, which no command word spells (R59, I5). -/
  | negativePin (p : Int)
  /-- pin above 65535 (R69). -/
  | pinRange (p : Int)
  /-- nbits outside 0 .. 255 (R69). -/
  | nbitsRange (n : Int)
  /-- .cmd with more than 64 bits (R69). -/
  | wordRange (w : Nat)
  /-- No mnemonic of R68-R71 with this number of operands. -/
  | unknownLine
  /-- An operand that is no literal of R69. -/
  | badLiteral
  deriving DecidableEq, Repr

/-- The PIN field of a pin operand (R69). -/
def asmPin (p : Int) : Except AsmError Pin :=
  if p < 0 then .error (.negativePin p)
  else if 65535 < p then .error (.pinRange p)
  else .ok (BitVec.ofInt 16 p)

/-- The NBITS field of an nbits operand: its field range only, not the hardware's check (R69). -/
def asmNbits (n : Int) : Except AsmError Width :=
  if n < 0 ∨ 255 < n then .error (.nbitsRange n) else .ok (BitVec.ofInt 8 n)

/-- The VALUE field of a value operand: value mod 2^32 (R69). -/
def asmValue (v : Int) : Except AsmError Value :=
  if v < -2 ^ 31 ∨ 2 ^ 32 - 1 < v then .error (.valueRange v) else .ok (BitVec.ofInt 32 v)

/-- An encoder's three operands, checked in their order. -/
def asmEncoder (mk : Value → Pin → Width → Instr) (v p n : Int) : Except AsmError Cmd := do
  let value ← asmValue v
  let pin ← asmPin p
  let nbits ← asmNbits n
  return encode (mk value pin nbits)

/-- A decoder's two operands, checked in their order. -/
def asmDecoder (mk : Pin → Width → Instr) (p n : Int) : Except AsmError Cmd := do
  let pin ← asmPin p
  let nbits ← asmNbits n
  return encode (mk pin nbits)

/-- The command word of a line (R68-R71). -/
def assemble : AsmLine → Except AsmError Cmd
  | .encu v p n => asmEncoder .encu v p n
  | .encs v p n => asmEncoder .encs v p n
  | .decu p n => asmDecoder .decu p n
  | .decs p n => asmDecoder .decs p n
  | .clrw p n => asmEncoder .encu 0 p n
  | .setw p n => asmEncoder .encu 0xFFFFFFFF p n
  | .raw w => if w < 2 ^ 64 then .ok (BitVec.ofNat 64 w) else .error (.wordRange w)

/-- A letter in lower case: mnemonics are case-insensitive (R68). -/
def lowerChar (c : Char) : Char :=
  if 'A' ≤ c ∧ c ≤ 'Z' then Char.ofNat (c.toNat + 32) else c

/-- Space, tab or carriage return. -/
def isBlank (c : Char) : Bool := c == ' ' || c == '\t' || c == '\r'

/-- `cs` without blanks at either end. -/
def trimBlanks (cs : List Char) : List Char :=
  ((cs.dropWhile isBlank).reverse.dropWhile isBlank).reverse

/-- The parts of `cs` between the characters `sep`. -/
def splitAtChar (sep : Char) : List Char → List (List Char)
  | [] => [[]]
  | c :: cs =>
    match splitAtChar sep cs with
    | [] => [[c]]
    | p :: ps => if c = sep then [] :: p :: ps else (c :: p) :: ps

/-- The value of a hexadecimal digit. -/
def hexDigit (c : Char) : Option Nat :=
  if '0' ≤ c ∧ c ≤ '9' then some (c.toNat - 48)
  else if 'a' ≤ lowerChar c ∧ lowerChar c ≤ 'f' then some ((lowerChar c).toNat - 87)
  else none

/-- The digits `cs` in `base`, after `acc`. -/
def digitsValue (base : Nat) (acc : Nat) : List Char → Option Nat
  | [] => some acc
  | c :: cs =>
    match hexDigit c with
    | some d => if d < base then digitsValue base (acc * base + d) cs else none
    | none => none

/-- A nonempty digit string in `base`. -/
def numberValue (base : Nat) (cs : List Char) : Option Nat :=
  if cs = [] then none else digitsValue base 0 cs

/-- A literal of R69: decimal with an optional leading '-', or hexadecimal after 0x. -/
def literalValue : List Char → Option Int
  | '-' :: cs => (numberValue 10 cs).map fun n => -(n : Int)
  | '0' :: 'x' :: cs => (numberValue 16 cs).map fun n => (n : Int)
  | cs => (numberValue 10 cs).map fun n => (n : Int)

/-- All of the operands as literals. -/
def literalValues : List (List Char) → Option (List Int)
  | [] => some []
  | o :: os =>
    match literalValue o, literalValues os with
    | some v, some vs => some (v :: vs)
    | _, _ => none

/-- The line of a mnemonic (in lower case) and its operand values (R68, R70, R71). -/
def lineOf (mnemonic : List Char) (operands : List Int) : Except AsmError AsmLine :=
  match operands with
  | [v, p, n] =>
    if mnemonic = ['e', 'n', 'c', 'u'] then .ok (.encu v p n)
    else if mnemonic = ['e', 'n', 'c', 's'] then .ok (.encs v p n)
    else .error .unknownLine
  | [p, n] =>
    if mnemonic = ['d', 'e', 'c', 'u'] then .ok (.decu p n)
    else if mnemonic = ['d', 'e', 'c', 's'] then .ok (.decs p n)
    else if mnemonic = ['c', 'l', 'r', 'w'] then .ok (.clrw p n)
    else if mnemonic = ['s', 'e', 't', 'w'] then .ok (.setw p n)
    else .error .unknownLine
  | _ => .error .unknownLine

/-- The directive .cmd takes one hexadecimal literal (R69). DESIGN CHOICE, log entry 12: any number of digits but none is taken, and the
value, below 2^64, is the word; the spec does not say that all 16 digits must be written. -/
def rawLine : List (List Char) → Except AsmError AsmLine
  | [o] =>
    match o with
    | '0' :: 'x' :: cs =>
      match numberValue 16 cs with
      | some w => .ok (.raw w)
      | none => .error .badLiteral
    | _ => .error .badLiteral
  | _ => .error .unknownLine

/-- One line of text: the comment after ';' dropped, then nothing, or a mnemonic and comma-separated operands (R68, R69). -/
def parseLine (cs : List Char) : Except AsmError (Option AsmLine) :=
  let code := trimBlanks (cs.takeWhile fun c => c != ';')
  if code = [] then .ok none
  else
    let word := code.takeWhile fun c => !isBlank c
    let operands := (splitAtChar ',' (code.dropWhile fun c => !isBlank c)).map trimBlanks
    if word = ['.', 'c', 'm', 'd'] then (rawLine operands).map some
    else
      match literalValues operands with
      | some vs => (lineOf (word.map lowerChar) vs).map some
      | none => .error .badLiteral

/-- The command words of the lines of a program text, or the first refusal (R72: a program is a sequence of command words). -/
def assembleLines : List (List Char) → Except AsmError (List Cmd)
  | [] => .ok []
  | l :: ls => do
    match ← parseLine l with
    | none => assembleLines ls
    | some a => do
      let w ← assemble a
      let ws ← assembleLines ls
      return w :: ws

/-- The command words of a program text. DESIGN CHOICE, log entry 12: a line holds at most one instruction, and a newline ends both the
instruction and a comment; R68 says only that a comment starts with ';'. -/
def assembleText (cs : List Char) : Except AsmError (List Cmd) :=
  assembleLines (splitAtChar '\n' cs)

end Sys2Proof.Machine
end

