-- ==== Sys2Proof/WellFormed.lean ====
section
/-! DEFINITION. Which commands a block with given parameters performs (30_encoding.md R58, R65; 60_exceptions.md R103, R104). A command
that is not well-formed still has its effect, a response with a non-OK status (R105): well-formedness is the premise under which that
status is OK. -/

namespace Sys2Proof

/-- 1 ≤ n ≤ MAX_BITS (R58). -/
abbrev Instr.NbitsLegal (P : Params) (i : Instr) : Prop :=
  1 ≤ i.nbits.toNat ∧ i.nbits.toNat ≤ P.maxBits

/-- The window lies in the array: p + n ≤ ARRAY_LEN, summed without wrap-around (R40, R44). -/
abbrev Instr.WindowLegal (P : Params) (i : Instr) : Prop :=
  i.pin.toNat + i.nbits.toNat ≤ P.arrayLen

/-- The command passes both checks that depend on its operands (R103, R104). -/
abbrev Instr.WellFormed (P : Params) (i : Instr) : Prop :=
  i.NbitsLegal P ∧ i.WindowLegal P

end Sys2Proof
end

