-- ==== Sys2Proof/Safety.lean ====
section
/-! DEFINITION. The terms claims use: the value of a window (42_decode.md R92), the invariant of the machine, a fair run and a hang
(70_reset_and_hazards.md R129, R130), and the schedules of a command that goes access by access (20_memory.md R51). -/

namespace Sys2Proof.Machine

/-- The integer `u` of R92 for the window (p, n) of an array that reads as `f`: slot p+i adds 2^(n-1-i) if it is nonzero. -/
def windowValue (p n : Nat) (f : Nat → Byte) : Nat :=
  ((List.range n).map fun i => if truthy (f (p + i)) then 2 ^ (n - 1 - i) else 0).sum

/-- Everything that a command done as one step leaves alone: all of State but the array, the block's activity and the response. The record
of the run changes only by a response that is not OK (R109). -/
structure SameElsewhere (s t : State) : Prop where
  params     : t.params = s.params
  rst        : t.rst = s.rst
  cmdValid   : t.cmdValid = s.cmdValid
  cmd        : t.cmd = s.cmd
  cmdEarlier : t.cmdEarlier = s.cmdEarlier
  memAck     : t.memAck = s.memAck
  respReady  : t.respReady = s.respReady
  taken      : t.taken = s.taken
  otherReads : t.otherReads = s.otherReads
  schedule   : t.schedule = s.schedule
  record     : ∀ r, t.resp = some r → t.runFaulted = recordFault r.status s.runFaulted

/-- The checks of R106 as the command `i` meets them: a word with a nonzero reserved field is no command and is answered ERR_RSVD; an
illegal width is answered ERR_BITS; a legal width whose window leaves the array is answered ERR_WINDOW. -/
structure ChecksComeFirst (i : Instr) (s : State) : Prop where
  reserved : ∀ w, cmdRsvd w ≠ 0#6 → performWord w s = .next (raiseStatus .errRsvd s)
  nbits    : ¬ i.NbitsLegal s.params → exec i s = .next (raiseStatus .errBits s)
  window   : i.NbitsLegal s.params → ¬ i.WindowLegal s.params → exec i s = .next (raiseStatus .errWindow s)

/-- What holds of a command in progress: the slots still to access lie in its window, each once; a command that failed a check has none;
and its sum cannot leave U(n), whatever the slots still to read hold. -/
structure Progress.Inv (P : Params) (c : Progress) : Prop where
  inWindow : ∀ k ∈ c.pending, k ∈ window (cmdPin c.word).toNat (cmdNbits c.word).toNat
  once     : c.pending.Nodup
  checked  : checkWord P c.word ≠ .ok → c.pending = []
  bounded  : c.acc + (c.pending.map (slotWeight (cmdPin c.word).toNat (cmdNbits c.word).toNat)).sum
               ≤ 2 ^ (cmdNbits c.word).toNat - 1

/-- A response with a non-OK status carries RESULT = 0 (R67, R105). -/
abbrev Response.Inv (r : Response) : Prop := r.status ≠ .ok → r.result = 0#32

/-- The invariant of the machine, kept by every step from every state that has it. -/
structure State.Inv (s : State) : Prop where
  /-- The parameters are admissible (R6). -/
  admissible : s.params.Admissible
  /-- The array is in canonical form. -/
  canonical  : Memory.wf s.array
  /-- No slot at or above ARRAY_LEN is listed (R27, R38). -/
  inArray    : ∀ c ∈ s.array, c.1 < s.params.arrayLen
  /-- busy and resp_valid are never both 1 (R30, R31). -/
  exclusive  : s.current = none ∨ s.resp = none
  /-- While rst = 1, busy, resp_valid and mem_req are 0 (R117). -/
  inReset    : s.rst = true → s.current = none ∧ s.resp = none ∧ s.memReq = none
  /-- Earlier words stand only beside a presented word (R126). -/
  earlier    : s.cmdValid = false → s.cmdEarlier = []
  /-- The command in progress. -/
  progress   : ∀ c, s.current = some c → c.Inv s.params
  /-- mem_req = 1 only for an access the command in progress still has to make (R45, R46). -/
  request    : ∀ r, s.memReq = some r → ∃ c, s.current = some c ∧ ∃ k ∈ c.pending, r = requestFor c.word k
  /-- The response held. -/
  held       : ∀ r, s.resp = some r → r.Inv
  /-- The responses taken. -/
  taken      : ∀ r ∈ s.taken, r.Inv
  /-- Every non-OK response held or taken is on the record of the run (R109, I13). -/
  recorded   : ∀ r, s.resp = some r ∨ r ∈ s.taken → r.status ≠ .ok → s.runFaulted = true

/-- The memory side and the caller of R129, once the scheduled events are over: every access is acknowledged, every response is taken, and
reset is not held. A schedule is finite, so a run whose last levels are these is fair: no command waits for ever. -/
structure State.Fair (s : State) : Prop where
  acks  : s.memAck = true
  takes : s.respReady = true
  runs  : s.rst = false

/-- The block waits (R130): reset is held, or an access is not acknowledged, or a response is not taken. -/
abbrev State.Hangs (s : State) : Prop :=
  s.rst = true ∨ (s.memReq ≠ none ∧ s.memAck = false) ∨ (s.resp ≠ none ∧ s.respReady = false)

/-- The request and the acknowledgement of each slot of `ks`, in that order. -/
def accessEvents (ks : List Nat) : List Event :=
  ks.flatMap fun k => [.request k, .ack]

/-- The slots of the window that the word `w` has to access. -/
def windowOf (P : Params) (w : Cmd) : List Nat := (startProgress P w).pending

/-- What the encode word `w` writes to the slot `k` of its window (R81, R82, R84). -/
def encodedSlot (w : Cmd) (k : Nat) : Byte :=
  slotByte (slotBit (cmdPin w).toNat (cmdNbits w).toNat (wordPattern w) k)

/-- RESULT of the decode word `w` when its window reads as `f` (R92, R94). -/
def decodedResult (w : Cmd) (f : Nat → Byte) : Value :=
  let u := windowValue (cmdPin w).toNat (cmdNbits w).toNat f
  if cmdSigned w then fromOffset u (cmdNbits w).toNat else zext32 u

end Sys2Proof.Machine
end

