-- ==== Sys2Proof/Certificates/Slice0/Obligations.lean ====
section
/-! DEFINITION. The statements about the machine, each from the rules of spec/ that its docstring names. The witnesses of their hypotheses stand
in Sys2Proof/Tests/Slice0.lean. -/

open Sys2Proof Sys2Proof.Machine

/-! ## Encoding (30_encoding.md) -/

/-- Decoding the word of any command gives that command back, with every operand at every value (R55, R56). -/
def Obligations.DecodeOfEncodeGivesTheCommandBack : Prop :=
  ∀ i : Instr, decode (encode i) = .ok i

/-- Encoding what a word decodes to gives the word back, but for the VALUE field of a decoder, which R62 ignores and R68 assembles as 0. -/
def Obligations.EncodeOfDecodeGivesTheWordBack : Prop :=
  ∀ (w : Cmd) (i : Instr), decode w = .ok i → encode i = if cmdEncodes w then w else w &&& 0x00000000FFFFFFFF#64

/-- R55: the packed word value is the sum of the fields at their places. -/
def Obligations.CommandWordIsTheSumOfItsFields : Prop :=
  ∀ w : Cmd, w.toNat = (cmdValue w).toNat * 2 ^ 32 + (cmdPin w).toNat * 2 ^ 16 + (cmdNbits w).toNat * 2 ^ 8 +
    (cmdRsvd w).toNat * 2 ^ 2 + (cmdOp w).toNat

/-- R57, R64: CMD[7:0] selects the command; a nonzero CMD[7:2] is no operation and is answered ERR_RSVD with no other effect on the
machine (`runFaulted`, the record of the RUN that R109 asks for, stands beside it: log entry 9). -/
def Obligations.LowByteSelectsTheCommand : Prop :=
  ∀ (s : State) (w : Cmd),
    (w.toNat % 256 = 0 → decode w = .ok (.encu (cmdValue w) (cmdPin w) (cmdNbits w)) ∧
      performWord w s = exec (.encu (cmdValue w) (cmdPin w) (cmdNbits w)) s) ∧
    (w.toNat % 256 = 1 → decode w = .ok (.decu (cmdPin w) (cmdNbits w)) ∧
      performWord w s = exec (.decu (cmdPin w) (cmdNbits w)) s) ∧
    (w.toNat % 256 = 2 → decode w = .ok (.encs (cmdValue w) (cmdPin w) (cmdNbits w)) ∧
      performWord w s = exec (.encs (cmdValue w) (cmdPin w) (cmdNbits w)) s) ∧
    (w.toNat % 256 = 3 → decode w = .ok (.decs (cmdPin w) (cmdNbits w)) ∧
      performWord w s = exec (.decs (cmdPin w) (cmdNbits w)) s) ∧
    (w.toNat / 4 % 64 ≠ 0 → decode w = .error (.reserved (cmdRsvd w)) ∧
      performWord w s = .next { s with current := none, memReq := none, resp := some ⟨.errRsvd, 0#32⟩, runFaulted := true })

/-- R62: a decoder's VALUE field is neither checked nor used: two decode words that agree below bit 32 behave the same. -/
def Obligations.DecodersIgnoreTheValueField : Prop :=
  ∀ (s : State) (w w' : Cmd), cmdEncodes w = false → w.toNat % 2 ^ 32 = w'.toNat % 2 ^ 32 →
    performWord w s = performWord w' s

/-- Words of 95_test_vectors.md, one for each command and one reserved, decode to what their text says. -/
def Obligations.TestVectorWordsDecode : Prop :=
  decode 0x0000000900020400#64 = .ok (.encu 9#32 2#16 4#8) ∧
  decode 0x0000000000010301#64 = .ok (.decu 1#16 3#8) ∧
  decode 0xFFFFFFFD00040402#64 = .ok (.encs 0xFFFFFFFD#32 4#16 4#8) ∧
  decode 0x0000000000002003#64 = .ok (.decs 0#16 32#8) ∧
  decode 0xDEADBEEF00000401#64 = .ok (.decu 0#16 4#8) ∧
  decode 0x00000000000003FF#64 = .error (.reserved 63#6)

/-- R67, R101: RESP holds RESULT in [31:0] and STATUS in [33:32], with the four codes of R101. -/
def Obligations.ResponseWordLayout : Prop :=
  (∀ r : Response, (respWord r).toNat = (statusCode r.status).toNat * 2 ^ 32 + r.result.toNat) ∧
  statusCode .ok = 0#2 ∧ statusCode .errRsvd = 1#2 ∧ statusCode .errBits = 2#2 ∧ statusCode .errWindow = 3#2

/-! ## offset_binary_signed_converter (40_offset_binary.md) -/

/-- R75: the forward conversion adds the bias mod 2^32; on a signed number s of S(n) its low n bits are s + 2^(n-1), a number of U(n). -/
def Obligations.ToOffsetAddsTheBias : Prop :=
  (∀ (v : Value) (n : Nat), 1 ≤ n → n ≤ 32 → (toOffset v n).toNat = (v.toNat + 2 ^ (n - 1)) % 2 ^ 32) ∧
  (∀ (s : Int) (n : Nat), 1 ≤ n → n ≤ 32 → -2 ^ (n - 1) ≤ s → s ≤ 2 ^ (n - 1) - 1 →
    (((toOffset (BitVec.ofInt 32 s) n).toNat % 2 ^ n : Nat) : Int) = s + 2 ^ (n - 1) ∧
    0 ≤ s + 2 ^ (n - 1) ∧ s + 2 ^ (n - 1) ≤ 2 ^ n - 1) ∧
  toOffset 0xFFFFFFFF#32 3 = 0x00000003#32

/-- R76: the reverse conversion of u in U(n) is the signed number u - 2^(n-1), which lies in S(n), as a 32-bit pattern. -/
def Obligations.FromOffsetSubtractsTheBias : Prop :=
  (∀ u n : Nat, 1 ≤ n → n ≤ 32 → u < 2 ^ n →
    (fromOffset u n).toInt = (u : Int) - 2 ^ (n - 1) ∧
    -2 ^ (n - 1) ≤ (u : Int) - 2 ^ (n - 1) ∧ (u : Int) - 2 ^ (n - 1) ≤ 2 ^ (n - 1) - 1 ∧
    ((fromOffset u n).toNat : Int) = ((u : Int) - 2 ^ (n - 1)) % 2 ^ 32) ∧
  fromOffset 3 3 = 0xFFFFFFFF#32

/-- R77: the low n bits of ToOffset(v, n) are those of v with bit n-1 inverted. -/
def Obligations.ToOffsetInvertsTheTopBit : Prop :=
  ∀ (v : Value) (n : Nat), 1 ≤ n → n ≤ 32 →
    (toOffset v n).toNat % 2 ^ n = (v.toNat % 2 ^ n) ^^^ 2 ^ (n - 1)

/-- R78: FromOffset(u, n) is u XOR 2^(n-1), sign-extended from n bits. -/
def Obligations.FromOffsetSignExtends : Prop :=
  ∀ u n : Nat, 1 ≤ n → n ≤ 32 → u < 2 ^ n → fromOffset u n = sext32 n (BitVec.ofNat 32 (u ^^^ 2 ^ (n - 1)))

/-- R79: the inverse laws (a), (b) and (c). -/
def Obligations.ConverterInverseLaws : Prop :=
  ∀ n : Nat, 1 ≤ n → n ≤ 32 →
    (∀ s : Int, -2 ^ (n - 1) ≤ s → s ≤ 2 ^ (n - 1) - 1 →
      fromOffset ((toOffset (BitVec.ofInt 32 s) n).toNat % 2 ^ n) n = BitVec.ofInt 32 s) ∧
    (∀ u : Nat, u < 2 ^ n → (toOffset (fromOffset u n) n).toNat % 2 ^ n = u) ∧
    (∀ v : Value, fromOffset ((toOffset v n).toNat % 2 ^ n) n = sext32 n v)

/-! ## Checks and statuses (60_exceptions.md) -/

/-- R101, R106: every word is answered with exactly one status code, that of the first check that fails in the order reserved field (1), width
(2), window (3), and 0 if none does; with 0 the command the word decodes to has been performed, and with another code RESULT is 0 (R11). -/
def Obligations.ChecksInPriorityOrder : Prop :=
  ∀ (s : State) (w : Cmd), ∃ t r, performWord w s = .next t ∧ t.resp = some r ∧ (r.status ≠ .ok → r.result = 0#32) ∧
    (r.status = .ok → ∃ i, decode w = .ok i ∧ i.WellFormed s.params ∧ performWord w s = exec i s) ∧
    statusCode r.status =
      if w.toNat / 4 % 64 ≠ 0 then 1#2
      else if w.toNat / 2 ^ 8 % 2 ^ 8 = 0 ∨ s.params.maxBits < w.toNat / 2 ^ 8 % 2 ^ 8 then 2#2
      else if s.params.arrayLen < w.toNat / 2 ^ 16 % 2 ^ 16 + w.toNat / 2 ^ 8 % 2 ^ 8 then 3#2
      else 0#2

/-- R105: a command with a non-OK status answers RESULT = 0 and leaves everything else as it was (but the run's record, log entry 9); taken
access by access it has no slot to access, and no request can be raised for it. -/
def Obligations.FaultedCommandTouchesNoSlot : Prop :=
  (∀ (s t : State) (w : Cmd) (r : Response), performWord w s = .next t → t.resp = some r → r.status ≠ .ok →
    r.result = 0#32 ∧ t.array = s.array ∧ SameElsewhere s t) ∧
  (∀ (s : State) (w : Cmd) (k : Nat), checkWord s.params w ≠ .ok → s.current = some (startProgress s.params w) →
    requestStep k s = s)

/-- R101, R67: every command word of the 2^64 is answered by one response, with RESULT = 0 unless it is a decoder's OK; what other agents
could see besides is unchanged, and a decoder changes no slot. -/
def Obligations.EveryCommandWordIsAnswered : Prop :=
  ∀ (s : State) (w : Cmd), ∃ t r, performWord w s = .next t ∧ t.resp = some r ∧ t.current = none ∧ t.memReq = none ∧
    SameElsewhere s t ∧ (r.status ≠ .ok ∨ cmdEncodes w = true → r.result = 0#32) ∧
    (r.status ≠ .ok ∨ cmdEncodes w = false → t.array = s.array)

/-- R108: a faulted command leaves nothing but its response, which once taken leaves the block ready (unless rst = 1); a later command does
exactly what it would have done without it. The record that the RUN has seen a fault (R109) stands beside the block: log entry 9. -/
def Obligations.FaultLeavesNoStickyState : Prop :=
  ∀ (s : State) (w w' : Cmd), checkWord s.params w ≠ .ok →
    ∃ t u u', performWord w s = .next t ∧
      t = { s with current := none, memReq := none, resp := some ⟨checkWord s.params w, 0#32⟩, runFaulted := true } ∧
      cmdReady (takeStep t) = !s.rst ∧
      performWord w' s = .next u ∧ performWord w' t = .next { u with runFaulted := true } ∧
      performWord w' (takeStep t) = .next u' ∧ u'.resp = u.resp ∧ u'.array = u.array

/-- R109, I13: every response with a non-OK status is recorded as a fault of the run when it is produced, by a whole command and by a command
that went access by access; no step, reset included, takes the record back; and no step makes it but one that produces such a response.
The form of the record is the model's choice, log entry 9. -/
def Obligations.NonOkStatusIsAFaultOfTheRun : Prop :=
  (∀ (s t : State) (w : Cmd), checkWord s.params w ≠ .ok → performWord w s = .next t → t.runFaulted = true) ∧
  (∀ (s t : State) (r : Response), s.resp = none → step s = .next t → t.resp = some r → r.status ≠ .ok → t.runFaulted = true) ∧
  (∀ s t : State, s.runFaulted = true → step s = .next t → t.runFaulted = true) ∧
  (∀ s t : State, s.runFaulted = false → step s = .next t → t.runFaulted = true → ∃ r, t.resp = some r ∧ r.status ≠ .ok)

/-! ## Encode operations (41_encode.md) -/

/-- R82: ENCU. A word with CMD[7:0] = 0 performs it. The checks come first; a command that passes them writes SlotByte(v[n-1-k]) to slot p+k for each k < n and no other slot, and
answers (OK, 0). -/
def Obligations.EncuWritesItsWindow : Prop :=
  ∀ (s : State) (v : Value) (p : Pin) (n : Width),
    (∀ w : Cmd, w.toNat % 256 = 0 → performWord w s = exec (.encu (cmdValue w) (cmdPin w) (cmdNbits w)) s) ∧
    ChecksComeFirst (.encu v p n) s ∧
    ((Instr.encu v p n).WellFormed s.params →
      ∃ t, exec (.encu v p n) s = .next t ∧ t.resp = some ⟨.ok, 0#32⟩ ∧ t.current = none ∧ t.memReq = none ∧
        SameElsewhere s t ∧
        (∀ k, k < n.toNat →
          memRead t.array (p.toNat + k) = if v.getLsbD (n.toNat - 1 - k) then 0xFF#8 else 0x00#8) ∧
        (∀ j, j < p.toNat ∨ p.toNat + n.toNat ≤ j → memRead t.array j = memRead s.array j))

/-- R84: ENCS. As ENCU, on the pattern u = (v + 2^(n-1)) mod 2^32, whose low n bits are those of v with bit n-1 inverted. -/
def Obligations.EncsWritesItsWindow : Prop :=
  ∀ (s : State) (v : Value) (p : Pin) (n : Width),
    (∀ w : Cmd, w.toNat % 256 = 2 → performWord w s = exec (.encs (cmdValue w) (cmdPin w) (cmdNbits w)) s) ∧
    ChecksComeFirst (.encs v p n) s ∧
    ((Instr.encs v p n).WellFormed s.params →
      ∃ t, exec (.encs v p n) s = .next t ∧ t.resp = some ⟨.ok, 0#32⟩ ∧ t.current = none ∧ t.memReq = none ∧
        SameElsewhere s t ∧
        (∀ k, k < n.toNat →
          memRead t.array (p.toNat + k) =
            if (BitVec.ofNat 32 (v.toNat + 2 ^ (n.toNat - 1))).getLsbD (n.toNat - 1 - k) then 0xFF#8 else 0x00#8) ∧
        (s.params.Admissible → ∀ k, k < n.toNat →
          memRead t.array (p.toNat + k) =
            if (v.getLsbD (n.toNat - 1 - k) ^^ decide (k = 0)) = true then 0xFF#8 else 0x00#8) ∧
        (∀ j, j < p.toNat ∨ p.toNat + n.toNat ≤ j → memRead t.array j = memRead s.array j))

/-- R83, R85: only the low n bits of VALUE matter to an encoder, in range or not: two values that agree mod 2^n have the same outcome, and
the outcome of a command that passes its checks is OK. -/
def Obligations.EncodersKeepTheLowBits : Prop :=
  ∀ (s : State) (v v' : Value) (p : Pin) (n : Width), s.params.Admissible → v.toNat % 2 ^ n.toNat = v'.toNat % 2 ^ n.toNat →
    exec (.encu v p n) s = exec (.encu v' p n) s ∧ exec (.encs v p n) s = exec (.encs v' p n) s ∧
    ((Instr.encu v p n).WellFormed s.params →
      ∃ t t', exec (.encu v p n) s = .next t ∧ t.resp = some ⟨.ok, 0#32⟩ ∧
        exec (.encs v p n) s = .next t' ∧ t'.resp = some ⟨.ok, 0#32⟩)

/-- R86, R87: ENCS at width 1 writes the inverse of VALUE's bit 0 to slot p; at width 32 (only when MAX_BITS = 32) the encoders write VALUE,
ENCS with bit 31 inverted, bit 31 in slot p and bit 0 in slot p+31. -/
def Obligations.EncodersAtTheWidthExtremes : Prop :=
  ∀ (s : State) (v : Value) (p : Pin), s.params.Admissible →
    (p.toNat + 1 ≤ s.params.arrayLen →
      ∃ t, exec (.encs v p 1#8) s = .next t ∧
        memRead t.array p.toNat = if v.getLsbD 0 then 0x00#8 else 0xFF#8) ∧
    (s.params.maxBits = 32 → p.toNat + 32 ≤ s.params.arrayLen →
      ∃ t t', exec (.encu v p 32#8) s = .next t ∧ exec (.encs v p 32#8) s = .next t' ∧
        ∀ k, k < 32 →
          memRead t.array (p.toNat + k) = (if v.getLsbD (31 - k) then 0xFF#8 else 0x00#8) ∧
          memRead t'.array (p.toNat + k) = (if (v ^^^ 0x80000000#32).getLsbD (31 - k) then 0xFF#8 else 0x00#8))

/-- R88: the frame of ENCU and ENCS, whatever their status: every slot outside the window, and all of State that is not the array or the
response, is as before; with a non-OK status the whole array is (and the run's record is set, log entry 9). -/
def Obligations.EncoderFrame : Prop :=
  ∀ (i : Instr) (s t : State), i.isEncoder = true → exec i s = .next t →
    SameElsewhere s t ∧
    (∀ j, j < i.pin.toNat ∨ i.pin.toNat + i.nbits.toNat ≤ j → memRead t.array j = memRead s.array j) ∧
    (¬ i.WellFormed s.params → t.array = s.array)

/-- R90: of two encoders in a row, each slot of the second's window holds what the second alone would write, and every other slot what
the first left. -/
def Obligations.LaterEncoderWinsInTheOverlap : Prop :=
  ∀ (i j : Instr) (s : State), i.isEncoder = true → j.isEncoder = true → i.WellFormed s.params → j.WellFormed s.params →
    ∃ t u a, exec i s = .next t ∧ exec j t = .next u ∧ exec j s = .next a ∧
      ∀ k, memRead u.array k =
        if j.pin.toNat ≤ k ∧ k < j.pin.toNat + j.nbits.toNat then memRead a.array k else memRead t.array k

/-! ## Decode operations (42_decode.md) -/

/-- R92: DECU. The checks come first; a command that passes them answers OK with u, the sum of 2^(n-1-i) over the nonzero slots p+i, whose
bit j is slot p+n-1-j; no slot changes. -/
def Obligations.DecuReturnsTheWindow : Prop :=
  ∀ (s : State) (p : Pin) (n : Width), s.params.Admissible →
    (∀ w : Cmd, w.toNat % 256 = 1 → performWord w s = exec (.decu (cmdPin w) (cmdNbits w)) s) ∧
    ChecksComeFirst (.decu p n) s ∧
    ((Instr.decu p n).WellFormed s.params →
      ∃ r : Value, exec (.decu p n) s = .next { s with current := none, memReq := none, resp := some ⟨.ok, r⟩ } ∧
        r.toNat = windowValue p.toNat n.toNat (memRead s.array) ∧ r.toNat ≤ 2 ^ n.toNat - 1 ∧
        ∀ j, j < n.toNat → r.getLsbD j = (memRead s.array (p.toNat + n.toNat - 1 - j) != 0x00#8))

/-- R94: DECS. As DECU, answering the signed number u - 2^(n-1) of S(n) as a two's-complement pattern, which is u XOR 2^(n-1) sign-extended
from n bits; it is at least 0 exactly if slot p is nonzero. -/
def Obligations.DecsReturnsTheSignedWindow : Prop :=
  ∀ (s : State) (p : Pin) (n : Width), s.params.Admissible →
    (∀ w : Cmd, w.toNat % 256 = 3 → performWord w s = exec (.decs (cmdPin w) (cmdNbits w)) s) ∧
    ChecksComeFirst (.decs p n) s ∧
    ((Instr.decs p n).WellFormed s.params →
      ∃ r : Value, exec (.decs p n) s = .next { s with current := none, memReq := none, resp := some ⟨.ok, r⟩ } ∧
        r.toInt = (windowValue p.toNat n.toNat (memRead s.array) : Int) - 2 ^ (n.toNat - 1) ∧
        -2 ^ (n.toNat - 1) ≤ r.toInt ∧ r.toInt ≤ 2 ^ (n.toNat - 1) - 1 ∧
        r = sext32 n.toNat (BitVec.ofNat 32 (windowValue p.toNat n.toNat (memRead s.array) ^^^ 2 ^ (n.toNat - 1))) ∧
        (0 ≤ r.toInt ↔ memRead s.array p.toNat ≠ 0x00#8))

/-- R93: decoders tell only zero from nonzero: a decoder answers the same for two arrays whose window slots are nonzero in the same places, whatever their values and whatever
stands outside the window. -/
def Obligations.DecodersSeeOnlyZeroOrNonzero : Prop :=
  ∀ (i : Instr) (s s' : State), i.isEncoder = false → s.params = s'.params →
    (∀ k, i.pin.toNat ≤ k → k < i.pin.toNat + i.nbits.toNat →
      (memRead s.array k = 0x00#8 ↔ memRead s'.array k = 0x00#8)) →
    ∃ t t', exec i s = .next t ∧ exec i s' = .next t' ∧ t.resp = t'.resp

/-- R95: DECS at width 1 gives 0 for a nonzero slot and -1 for a zero one; at width 32 (only when MAX_BITS = 32) it gives u XOR 0x80000000. -/
def Obligations.DecsAtTheWidthExtremes : Prop :=
  ∀ (s : State) (p : Pin), s.params.Admissible →
    (p.toNat + 1 ≤ s.params.arrayLen →
      exec (.decs p 1#8) s = .next { s with current := none, memReq := none, resp := some ⟨.ok,
        if memRead s.array p.toNat = 0x00#8 then 0xFFFFFFFF#32 else 0x00000000#32⟩ }) ∧
    (s.params.maxBits = 32 → p.toNat + 32 ≤ s.params.arrayLen →
      exec (.decs p 32#8) s = .next { s with current := none, memReq := none, resp := some ⟨.ok,
        BitVec.ofNat 32 (windowValue p.toNat 32 (memRead s.array)) ^^^ 0x80000000#32⟩ })

/-- R96: the frame of DECU and DECS, whatever their status: nothing but the response changes, every byte of the array included; and decoding
again with the window unwritten, whatever else has changed, gives the same response. -/
def Obligations.DecoderFrame : Prop :=
  ∀ (i : Instr) (s t : State), i.isEncoder = false → exec i s = .next t →
    t.array = s.array ∧ SameElsewhere s t ∧
    ∀ a : State, a.params = s.params →
      (∀ k, i.pin.toNat ≤ k → k < i.pin.toNat + i.nbits.toNat → memRead a.array k = memRead t.array k) →
      ∃ b, exec i a = .next b ∧ b.resp = t.resp

/-- R97: ENCU then DECU on the same window, nobody writing it in between, gives the low n bits of VALUE, which for a number of U(n) is VALUE
itself. -/
def Obligations.UnsignedRoundTrip : Prop :=
  ∀ (s : State) (v : Value) (p : Pin) (n : Width), (Instr.encu v p n).WellFormed s.params →
    (∃ t, exec (.encu v p n) s = .next t ∧
      ∀ a : State, a.params = t.params →
        (∀ k, p.toNat ≤ k → k < p.toNat + n.toNat → memRead a.array k = memRead t.array k) →
        exec (.decu p n) a = .next { a with current := none, memReq := none, resp := some ⟨.ok, BitVec.ofNat 32 (v.toNat % 2 ^ n.toNat)⟩ }) ∧
    (v.toNat < 2 ^ n.toNat → BitVec.ofNat 32 (v.toNat % 2 ^ n.toNat) = v)

/-- R98: ENCS then DECS on the same window, nobody writing it in between, gives the low n bits of VALUE sign-extended, which for a
number of S(n) is VALUE itself. -/
def Obligations.SignedRoundTrip : Prop :=
  ∀ (s : State) (v : Value) (p : Pin) (n : Width), s.params.Admissible → (Instr.encs v p n).WellFormed s.params →
    (∃ t, exec (.encs v p n) s = .next t ∧
      ∀ a : State, a.params = t.params →
        (∀ k, p.toNat ≤ k → k < p.toNat + n.toNat → memRead a.array k = memRead t.array k) →
        exec (.decs p n) a = .next { a with current := none, memReq := none, resp := some ⟨.ok, sext32 n.toNat v⟩ }) ∧
    (∀ z : Int, -2 ^ (n.toNat - 1) ≤ z → z ≤ 2 ^ (n.toNat - 1) - 1 → v = BitVec.ofInt 32 z → sext32 n.toNat v = v)

/-- R99: a window read with the other signedness, nobody writing it in between: DECU after ENCS gives (v + 2^(n-1)) mod 2^n, DECS after ENCU gives FromOffset(v[n-1:0], n). -/
def Obligations.MixedSignedness : Prop :=
  ∀ (s : State) (v : Value) (p : Pin) (n : Width), s.params.Admissible → (Instr.encu v p n).WellFormed s.params →
    ∃ t t', exec (.encs v p n) s = .next t ∧ exec (.encu v p n) s = .next t' ∧
      ∀ a : State, a.params = s.params →
        ((∀ k, p.toNat ≤ k → k < p.toNat + n.toNat → memRead a.array k = memRead t.array k) →
          exec (.decu p n) a = .next { a with current := none, memReq := none, resp := some ⟨.ok, BitVec.ofNat 32 ((v.toNat + 2 ^ (n.toNat - 1)) % 2 ^ n.toNat)⟩ }) ∧
        ((∀ k, p.toNat ≤ k → k < p.toNat + n.toNat → memRead a.array k = memRead t'.array k) →
          exec (.decs p n) a = .next { a with current := none, memReq := none, resp := some ⟨.ok, fromOffset (v.toNat % 2 ^ n.toNat) n.toNat⟩ })

/-- R100: decoding a window and encoding the result with the same signedness and width leaves each of its slots at 0xFF if it was nonzero
and at 0x00 if it was zero. -/
def Obligations.ReencodingNormalisesTheWindow : Prop :=
  ∀ (s : State) (p : Pin) (n : Width), s.params.Admissible → (Instr.decu p n).WellFormed s.params →
    ∃ (a b : State) (ra rb : Value) (ta tb : State),
      exec (.decu p n) s = .next a ∧ a.resp = some ⟨.ok, ra⟩ ∧ exec (.encu ra p n) a = .next ta ∧
      exec (.decs p n) s = .next b ∧ b.resp = some ⟨.ok, rb⟩ ∧ exec (.encs rb p n) b = .next tb ∧
      ∀ k, p.toNat ≤ k → k < p.toNat + n.toNat →
        memRead ta.array k = (if memRead s.array k = 0x00#8 then 0x00#8 else 0xFF#8) ∧
        memRead tb.array k = (if memRead s.array k = 0x00#8 then 0x00#8 else 0xFF#8)

/-! ## Windows and state (10_state.md, 20_memory.md) -/

/-- R52: a command changes no slot outside its window, and its response does not depend on one; so an encoder on one window changes neither the
slots nor the decoded value of a disjoint one. -/
def Obligations.DisjointWindowsAreIndependent : Prop :=
  (∀ (i : Instr) (s t : State) (k : Nat), exec i s = .next t → k < i.pin.toNat ∨ i.pin.toNat + i.nbits.toNat ≤ k →
    memRead t.array k = memRead s.array k) ∧
  (∀ (i : Instr) (s s' : State), s.params = s'.params →
    (∀ k, i.pin.toNat ≤ k → k < i.pin.toNat + i.nbits.toNat → memRead s.array k = memRead s'.array k) →
    ∃ t t', exec i s = .next t ∧ exec i s' = .next t' ∧ t.resp = t'.resp) ∧
  (∀ (i j : Instr) (s t : State), i.isEncoder = true → j.isEncoder = false →
    (i.pin.toNat + i.nbits.toNat ≤ j.pin.toNat ∨ j.pin.toNat + j.nbits.toNat ≤ i.pin.toNat) → exec i s = .next t →
    ∃ a b, exec j s = .next a ∧ exec j t = .next b ∧ a.resp = b.resp)

/-- R21: a command's result depends only on its word, the parameters and the slots it reads. Two states alike in these get the same response
and, for an encoder that is OK, the same bytes in its window, whatever else they hold. -/
def Obligations.CommandDependsOnWordParamsAndWindow : Prop :=
  ∀ (s s' : State) (w : Cmd), s.params = s'.params →
    (cmdEncodes w = false → ∀ k ∈ window (cmdPin w).toNat (cmdNbits w).toNat, memRead s.array k = memRead s'.array k) →
    ∃ t t', performWord w s = .next t ∧ performWord w s' = .next t' ∧ t.resp = t'.resp ∧
      (cmdEncodes w = true → checkWord s.params w = .ok →
        ∀ k ∈ window (cmdPin w).toNat (cmdNbits w).toNat, memRead t.array k = memRead t'.array k)

/-- R25: no step changes the configuration. -/
def Obligations.ConfigurationNeverChanges : Prop :=
  ∀ s t : State, step s = .next t → t.params = s.params

/-- R33, R34, R35: right after reset no command is in progress, no response is held, no slot is requested, the block is ready for a command,
and reading the response ports is refused.
Its form is the model's choice, log entries 3 and 6. -/
def Obligations.ResetLeavesTheBlockReady : Prop :=
  busy State.reset = false ∧ respValid State.reset = false ∧ State.reset.memReq = none ∧ cmdReady State.reset = true ∧
  step { State.reset with schedule := [.sample] } = .refused .respNotValid

/-- The invariant holds right after reset. Its clauses on the parameters and the array rest on log entries 1 and 2 (the model's choice). -/
def Obligations.ResetMeetsTheInvariant : Prop :=
  State.reset.Inv

/-- Every step keeps the invariant: admissible parameters, the canonical array within ARRAY_LEN, busy and resp_valid exclusive, nothing in
progress under reset, every request one that the command in progress still owes, every decoder's sum within U(n), RESULT = 0 with every
non-OK status. The model's choice: the canonical form (log entry 2), the schedule (6), the list of taken responses (7), the record of non-OK
responses (9), and that earlier words stand only beside a presented one (10). -/
def Obligations.StepKeepsTheInvariant : Prop :=
  ∀ s t : State, s.Inv → step s = .next t → t.Inv

/-- R40, R49, R35: only another agent's access can leave the array: no event of the block faults, and the only refusal is reading the response
ports while no response is held. The model's choice: the fault (log entry 16), the refusal (3) and the form of the schedule (6). -/
def Obligations.OnlyOtherAgentsLeaveTheArray : Prop :=
  ∀ s : State, s.Inv →
    (∀ f, step s = .fault f → ∃ k rest, f = .slotOutOfRange k ∧ s.params.arrayLen ≤ k ∧
      ((∃ b, s.schedule = .otherWrite k b :: rest) ∨ s.schedule = .otherRead k :: rest)) ∧
    (∀ r, step s = .refused r → r = .respNotValid ∧ s.resp = none ∧ ∃ rest, s.schedule = .sample :: rest)

/-- The whole-machine rule on the array (R45, R46, R52, R88, R96, R119): a slot changes only by another agent's write to it; by the
acknowledgement of an encoder's request for that very slot, which writes its byte; or by the transfer of an encoder done as one step, to a
slot of its window. The second happens by its event, or at an edge with no event if the array holds mem_ack = 1; the third, by its event
or at an edge with no event, only if the array holds mem_ack = 1.
Its form is the model's choice, log entries 6 and
18 (the current word is accepted at an edge with no event). -/
def Obligations.ArrayChangesOnlyByWrites : Prop :=
  ∀ (s t : State) (k : Nat), s.Inv → step s = .next t → memRead t.array k ≠ memRead s.array k →
    (∃ rest, s.schedule = .otherWrite k (memRead t.array k) :: rest) ∨
    (((∃ rest, s.schedule = .ack :: rest) ∨ (s.schedule = [] ∧ s.memAck = true)) ∧
      ∃ c, s.current = some c ∧ cmdEncodes c.word = true ∧ k ∈ c.pending ∧ s.memReq = some (requestFor c.word k) ∧
        memRead t.array k = encodedSlot c.word k) ∨
    (∃ choice, ((∃ rest, s.schedule = .transact choice :: rest) ∨ (s.schedule = [] ∧ choice = 0)) ∧ s.memAck = true ∧
      transferEnabled s = true ∧ cmdEncodes (chosenWord s choice) = true ∧
      k ∈ windowOf s.params (chosenWord s choice) ∧ memRead t.array k = encodedSlot (chosenWord s choice) k)

/-! ## The ports (10_state.md R29 to R31; 70_reset_and_hazards.md) -/

/-- When a word is presented, the block is ready and the word decodes to a command, the step is exec of that command on the state whose
transfer has happened, if the array acknowledges: by the event `transact`, or with no event left (R31, R120). With an array that withholds, the
same step accepts the word and leaves it in progress (R129). The form of the schedule is the model's choice, log entry 6, and so is that an
edge with no event accepts the current word, whatever the caller showed before it, log entry 18. -/
def Obligations.StepRunsTheDecodedCommand : Prop :=
  ∀ (s : State) (rest : List Event) (i : Instr), transferEnabled s = true → decode s.cmd = .ok i →
    (s.memAck = true →
      step { s with schedule := .transact 0 :: rest } =
        exec i { s with schedule := rest, cmdValid := false, cmdEarlier := [] } ∧
      step { s with schedule := [] } = exec i { s with schedule := [], cmdValid := false, cmdEarlier := [] }) ∧
    (s.memAck = false →
      step { s with schedule := .transact 0 :: rest } = .next { s with schedule := rest, cmdValid := false, cmdEarlier := [], current := some (startProgress s.params s.cmd) } ∧
      step { s with schedule := [] } = .next { s with schedule := [], cmdValid := false, cmdEarlier := [], current := some (startProgress s.params s.cmd) })

/-- R102: a presented word whose reserved field is not zero is answered ERR_RSVD, whatever its OP, and the fault goes on the record of the run
(log entry 9): by the step that takes it if the array acknowledges, and at the next edge with no event if it withholds.
Its form is the model's choice, log entry 6. -/
def Obligations.StepAnswersReservedWords : Prop :=
  ∀ (s : State) (rest : List Event), transferEnabled s = true → cmdRsvd s.cmd ≠ 0#6 →
    (s.memAck = true →
      step { s with schedule := .transact 0 :: rest } =
        .next { s with schedule := rest, cmdValid := false, cmdEarlier := [], current := none, memReq := none, resp := some ⟨.errRsvd, 0#32⟩, runFaulted := true }) ∧
    (s.memAck = false → s.memReq = none →
      Sys2Proof.core.run 2 { s with schedule := [.transact 0] } =
        .next { s with schedule := [], cmdValid := false, cmdEarlier := [], current := none, memReq := none, resp := some ⟨.errRsvd, 0#32⟩, runFaulted := true })

/-- R125: while a command is in progress or a response waits, a presented command is not accepted: it stays on the port. A held response that
is not taken stays, and no command starts, until it is taken or the block is reset.
Its form is the model's choice, log entry 6. -/
def Obligations.BackpressureHoldsTheCommand : Prop :=
  ∀ s : State, (s.current ≠ none ∨ s.resp ≠ none) →
    cmdReady s = false ∧
    (∀ (choice : Nat) (rest : List Event),
      step { s with schedule := .transact choice :: rest } = .next { s with schedule := rest } ∧
      step { s with schedule := .accept choice :: rest } = .next { s with schedule := rest }) ∧
    (∀ (e : Event) (rest : List Event) (t : State) (r : Response), s.resp = some r → s.current = none →
      e ≠ .take → e ≠ .resetHigh → step { s with schedule := e :: rest } = .next t → t.resp = some r ∧ t.current = none)

/-- R117, R119: an edge with rst = 1 clears busy, resp_valid and mem_req and touches no slot; while rst = 1, cmd_ready = 0; when rst falls the
block is ready (R34).
The model's choice: the form of the schedule (log entry 6), the list of taken responses (7), and that the run's record, `runFaulted`,
survives reset (9: 60_exceptions.md section 1, R109, has a non-OK status recorded, and the spec does not say what a reset does to it). -/
def Obligations.ResetClearsTheInterface : Prop :=
  (∀ (s : State) (rest : List Event), ∃ t, step { s with schedule := .resetHigh :: rest } = .next t ∧
    busy t = false ∧ respValid t = false ∧ t.memReq = none ∧ cmdReady t = false ∧
    t.array = s.array ∧ t.params = s.params ∧ t.taken = s.taken ∧ t.runFaulted = s.runFaulted ∧ t.schedule = rest ∧
    ∃ u, step { t with schedule := [.resetLow] } = .next u ∧ cmdReady u = true ∧ u.array = s.array) ∧
  (∀ s : State, s.rst = true → cmdReady s = false)

/-- R35 and the response transfer of R29: a held response is handed over by `take` and may be read before; with none held, reading is refused
and `take` transfers nothing. At an edge with no event it is handed over if the caller holds resp_ready = 1, and waits else.
Its form is the model's choice, log entries 3, 6 and 7. -/
def Obligations.ResponseTransfer : Prop :=
  ∀ (s : State) (rest : List Event),
    (∀ r, s.resp = some r →
      step { s with schedule := .take :: rest } =
        .next { s with schedule := rest, resp := none, taken := s.taken ++ [r] } ∧
      step { s with schedule := .sample :: rest } = .next { s with schedule := rest } ∧
      (s.current = none → s.rst = false →
        step { s with schedule := [] } =
          .next (if s.respReady then { s with schedule := [], resp := none, taken := s.taken ++ [r] } else { s with schedule := [] }))) ∧
    (s.resp = none →
      step { s with schedule := .take :: rest } = .next { s with schedule := rest } ∧
      step { s with schedule := .sample :: rest } = .refused .respNotValid)

/-- R126: a caller that changes cmd before the transfer may have either word accepted: with choice 0 the new one, with choice 1 the old one. It is
performed if the array acknowledges, and is left in progress if it withholds.
Its form is the model's choice, log entry 6. -/
def Obligations.EitherWordMayBeAccepted : Prop :=
  ∀ (s : State) (w w' : Cmd) (rest : List Event), cmdReady s = true → s.cmdValid = false → s.cmdEarlier = [] →
    (s.memAck = true →
      Sys2Proof.core.run 3 { s with schedule := .present w :: .present w' :: .transact 0 :: rest } =
        performWord w' { s with cmd := w', schedule := rest } ∧
      Sys2Proof.core.run 3 { s with schedule := .present w :: .present w' :: .transact 1 :: rest } =
        performWord w { s with cmd := w', schedule := rest }) ∧
    (s.memAck = false →
      Sys2Proof.core.run 3 { s with schedule := .present w :: .present w' :: .transact 0 :: rest } =
        .next { s with cmd := w', current := some (startProgress s.params w'), schedule := rest } ∧
      Sys2Proof.core.run 3 { s with schedule := .present w :: .present w' :: .transact 1 :: rest } =
        .next { s with cmd := w', current := some (startProgress s.params w), schedule := rest })

/-- The signal rule of R29: a slot request stays as it is until it is acknowledged (or the block is reset).
Its form is the model's choice, log entry 6. -/
def Obligations.SlotRequestStaysStable : Prop :=
  ∀ (s t : State) (r : MemRequest) (e : Event) (rest : List Event), s.Inv → s.memReq = some r →
    s.schedule = e :: rest → e ≠ .ack → e ≠ .resetHigh → step s = .next t → t.memReq = some r

/-- R129: no response while an access of the command in progress is still to be made or not acknowledged; and while the array
withholds mem_ack, none in the step that accepts a command, whatever the event.
Its form is the model's choice, log entry 6. -/
def Obligations.NoResponseBeforeEveryAccess : Prop :=
  (∀ (s t : State) (c : Progress), s.current = some c → s.resp = none → (c.pending ≠ [] ∨ s.memReq ≠ none) →
    step s = .next t → t.resp = none) ∧
  (∀ s t : State, s.current = none → s.resp = none → s.memAck = false → step s = .next t → t.resp = none)

/-- R130: with no event left the block stays as it is, for ever, in exactly these cases: reset is held, a request is not acknowledged, a
response is not taken (the three hangs), or there is nothing to do: no command in progress, no response held, no word presented. In each it
is stuck, not faulted. A block with a command in progress and no request up always moves.
Its form is the model's choice, log entry 6. -/
def Obligations.HangIsNotAFault : Prop :=
  (∀ (n : Nat) (s : State), s.Inv → s.schedule = [] → s.Hangs → Sys2Proof.core.run n s = .next s) ∧
  (∀ s : State, s.Inv → s.schedule = [] →
    (step s = .next s ↔ s.Hangs ∨ (s.current = none ∧ s.resp = none ∧ s.cmdValid = false)))

/-- R67, R127, R129: a schedule is finite, so every run comes to its end and goes on edge by edge. If the array then acknowledges, a command
that is in progress responds with its status after at most 2n+1 edges (linear in its width n, no event needed); and if the caller takes
responses, the response is taken at the next edge.
Its form is the model's choice, log entries 6 and
17 (mem_req falls at each acknowledgement). -/
def Obligations.FairRunResponds : Prop :=
  ∀ (s t : State) (c : Progress), s.Inv → Sys2Proof.core.run s.schedule.length s = .next t → t.current = some c → t.memAck = true →
    ∃ (m : Nat) (u : State) (r : Response), m ≤ 2 * (cmdNbits c.word).toNat + 1 ∧
      Sys2Proof.core.run (s.schedule.length + m) s = .next u ∧
      u.current = none ∧ u.memReq = none ∧ u.resp = some r ∧ r.status = checkWord t.params c.word ∧ u.taken = t.taken ∧
      (t.respReady = true →
        Sys2Proof.core.run (s.schedule.length + m + 1) s = .next { u with resp := none, taken := u.taken ++ [r] })

/-- R129: a run that issues finitely many commands ends: from every state with no event left, an array that acknowledges, a caller that takes
responses and no reset, the block comes to rest with nothing in progress, held or presented, after at most 68 edges (65 for a command in
progress, one to take its response, two for the word presented).
Its form is the model's choice, log entries 6 and
17 (mem_req falls at each acknowledgement). -/
def Obligations.FairRunEnds : Prop :=
  ∀ s : State, s.Inv → s.schedule = [] → s.Fair →
    ∃ (m : Nat) (t : State), m ≤ 68 ∧ Sys2Proof.core.run m s = .next t ∧ t.current = none ∧ t.resp = none ∧ t.cmdValid = false ∧
      t.memReq = none ∧ step t = .next t

/-- R127: if the array acknowledges every access, a command in progress responds after two steps for each slot still to access and one more:
a number that grows linearly with the window.
Its form is the model's choice, log entries 6 and
17 (mem_req falls at each acknowledgement). -/
def Obligations.AcknowledgedCommandResponds : Prop :=
  ∀ (s : State) (c : Progress) (rest : List Event), s.Inv → s.current = some c → s.memReq = none →
    ∃ t, Sys2Proof.core.run (2 * c.pending.length + 1)
        { s with schedule := accessEvents c.pending ++ .finish :: rest } = .next t ∧
      t.current = none ∧ t.resp.map Response.status = some (checkWord s.params c.word) ∧
      c.pending.length ≤ (cmdNbits c.word).toNat

/-! ## Access by access (20_memory.md R50, R51, R53; 70_reset_and_hazards.md R118) -/

/-- R45, R46, R47: the slots a command accesses are those of its window, each once, and none with a non-OK status; an encoder's access is a
write of 0x00 or 0xFF, a decoder's a read, and a slot that is not owed (any more) is not requested.
Its form is the model's choice, log entries 6 and
17 (mem_req falls at each acknowledgement). -/
def Obligations.EachWindowSlotIsAccessedOnce : Prop :=
  (∀ (P : Params) (w : Cmd),
    (checkWord P w ≠ .ok → windowOf P w = []) ∧
    (checkWord P w = .ok → (windowOf P w).length = (cmdNbits w).toNat ∧ (windowOf P w).Nodup ∧
      ∀ k, k ∈ windowOf P w ↔ (cmdPin w).toNat ≤ k ∧ k < (cmdPin w).toNat + (cmdNbits w).toNat)) ∧
  (∀ (s : State) (c : Progress) (k : Nat) (rest : List Event), s.Inv → s.current = some c → s.memReq = none →
    (k ∉ c.pending → step { s with schedule := .request k :: rest } = .next { s with schedule := rest }) ∧
    (k ∈ c.pending → ∃ t u d,
      step { s with schedule := .request k :: .ack :: rest } = .next t ∧
      t.memReq = some (if cmdEncodes c.word then .write (BitVec.ofNat 16 k) (encodedSlot c.word k) else .read (BitVec.ofNat 16 k)) ∧
      (encodedSlot c.word k = 0x00#8 ∨ encodedSlot c.word k = 0xFF#8) ∧
      step t = .next u ∧ u.memReq = none ∧ u.current = some d ∧ d.word = c.word ∧ d.pending = c.pending.erase k ∧ k ∉ d.pending ∧
      ∀ j, memRead u.array j = if cmdEncodes c.word = true ∧ j = k then encodedSlot c.word k else memRead s.array j))

/-- R31, R50, R51: with nobody else moving, a command that goes access by access, in ANY order of its slots, ends in the very state of the
command done as one step, canonical array included, which is the event `transact` of an array that holds mem_ack = 1.
Its form is the model's choice, log entries 6 and
17 (mem_req falls at each acknowledgement). -/
def Obligations.AnyAccessOrderMatchesOneStep : Prop :=
  ∀ (s : State) (ks : List Nat) (rest : List Event), s.Inv → transferEnabled s = true →
    ks.Perm (windowOf s.params s.cmd) →
    Sys2Proof.core.run (2 * ks.length + 2)
        { s with schedule := .accept 0 :: (accessEvents ks ++ .finish :: rest) } =
      performWord s.cmd { s with schedule := rest, cmdValid := false, cmdEarlier := [] } ∧
    (s.memAck = true →
      step { s with schedule := .transact 0 :: rest } =
        performWord s.cmd { s with schedule := rest, cmdValid := false, cmdEarlier := [] })

/-- R118: reset in the middle of a command, after any set `ks` of its accesses: no response, and each slot of an abandoned encoder's window
holds the new byte if its access was performed and the old one if not, every other slot and every slot of an abandoned decoder the old one;
every subset is reached. A response that is held when reset comes is lost: the caller has not taken it.
The model's choice: the form of the schedule (log entry 6), the list of taken responses (7), that a lost response stays on the run's record,
`runFaulted` (9: 60_exceptions.md section 1, R109, has a non-OK status recorded, and the spec does not say what a reset does to it), and that
mem_req falls at each acknowledgement (17). -/
def Obligations.ResetAbandonsTheCommand : Prop :=
  (∀ (s : State) (ks : List Nat) (rest : List Event), s.Inv → transferEnabled s = true →
    ks.Nodup → (∀ k ∈ ks, k ∈ windowOf s.params s.cmd) →
    ∃ t, Sys2Proof.core.run (2 * ks.length + 2)
        { s with schedule := .accept 0 :: (accessEvents ks ++ .resetHigh :: rest) } = .next t ∧
      busy t = false ∧ respValid t = false ∧ t.memReq = none ∧ t.taken = s.taken ∧ t.schedule = rest ∧
      ∀ j, memRead t.array j = if cmdEncodes s.cmd = true ∧ j ∈ ks then encodedSlot s.cmd j else memRead s.array j) ∧
  (∀ (s : State) (r : Response) (rest : List Event), s.resp = some r →
    ∃ t, step { s with schedule := .resetHigh :: rest } = .next t ∧ t.resp = none ∧ t.taken = s.taken ∧ t.runFaulted = s.runFaulted)

/-- R53(a): another agent writes slot k during a decoder, after the accesses `ks` and before the accesses `ls`: the read of slot k gives the
value written if it comes after the write and the old one if before, whichever the order; the slot ends with the value written.
Its form is the model's choice, log entries 6 and 11 (that the order of atomic accesses alone
decides), and 17 (mem_req falls at each acknowledgement). -/
def Obligations.RacingWriteDuringADecoder : Prop :=
  ∀ (s : State) (ks ls : List Nat) (k : Nat) (b : Byte) (rest : List Event), s.Inv → transferEnabled s = true →
    cmdEncodes s.cmd = false → checkWord s.params s.cmd = .ok → k < s.params.arrayLen →
    (ks ++ ls).Perm (windowOf s.params s.cmd) →
    ∃ t, Sys2Proof.core.run (2 * ks.length + 2 * ls.length + 3)
        { s with schedule := .accept 0 :: (accessEvents ks ++ .otherWrite k b :: (accessEvents ls ++ .finish :: rest)) } =
          .next t ∧
      t.resp = some ⟨.ok, decodedResult s.cmd fun j => if j = k ∧ j ∈ ls then b else memRead s.array j⟩ ∧
      ∀ j, memRead t.array j = if j = k then b else memRead s.array j

/-- R53(b), R52: another agent writes slot k during an encoder: if k is in the window it ends with the encoder's byte or the other's,
according to which came last, and every other slot as without the other agent; outside the window there is no race.
Its form is the model's choice, log entries 6 and 11 (that the order of atomic accesses alone
decides), and 17 (mem_req falls at each acknowledgement). -/
def Obligations.RacingWriteDuringAnEncoder : Prop :=
  ∀ (s : State) (ks ls : List Nat) (k : Nat) (b : Byte) (rest : List Event), s.Inv → transferEnabled s = true →
    cmdEncodes s.cmd = true → checkWord s.params s.cmd = .ok → k < s.params.arrayLen →
    (ks ++ ls).Perm (windowOf s.params s.cmd) →
    ∃ t, Sys2Proof.core.run (2 * ks.length + 2 * ls.length + 3)
        { s with schedule := .accept 0 :: (accessEvents ks ++ .otherWrite k b :: (accessEvents ls ++ .finish :: rest)) } =
          .next t ∧
      t.resp = some ⟨.ok, 0#32⟩ ∧
      ∀ j, memRead t.array j =
        if j ∈ ls then encodedSlot s.cmd j
        else if j = k then b
        else if j ∈ ks then encodedSlot s.cmd j
        else memRead s.array j

/-- R53(c): another agent that reads slot k during an encoder sees the encoder's byte if its write has been performed, else the old value.
Its form is the model's choice, log entries 6, 7 and 11 (that the order of atomic accesses alone
decides), and 17 (mem_req falls at each acknowledgement). -/
def Obligations.RacingReadDuringAnEncoder : Prop :=
  ∀ (s : State) (ks ls : List Nat) (k : Nat) (rest : List Event), s.Inv → transferEnabled s = true →
    cmdEncodes s.cmd = true → checkWord s.params s.cmd = .ok → k < s.params.arrayLen →
    (ks ++ ls).Perm (windowOf s.params s.cmd) →
    ∃ t, Sys2Proof.core.run (2 * ks.length + 2 * ls.length + 3)
        { s with schedule := .accept 0 :: (accessEvents ks ++ .otherRead k :: (accessEvents ls ++ .finish :: rest)) } =
          .next t ∧
      t.resp = some ⟨.ok, 0#32⟩ ∧
      t.otherReads = s.otherReads ++ [(k, if k ∈ ks then encodedSlot s.cmd k else memRead s.array k)]

/-! ## The assembler (30_encoding.md R68 to R71) -/

/-- R68, R69: an encoder's operands in their ranges go into their fields, VALUE mod 2^32, RSVD and a decoder's VALUE zero; an operand outside
its range is refused, a negative pin by its own name (R59).
Its form is the model's choice, log entry 12. -/
def Obligations.AssembledWordsByArithmetic : Prop :=
  (∀ v p n : Int, -2 ^ 31 ≤ v → v ≤ 2 ^ 32 - 1 → 0 ≤ p → p ≤ 65535 → 0 ≤ n → n ≤ 255 →
    assemble (.encu v p n) = .ok (BitVec.ofInt 64 (v % 2 ^ 32 * 2 ^ 32 + p * 2 ^ 16 + n * 2 ^ 8)) ∧
    assemble (.encs v p n) = .ok (BitVec.ofInt 64 (v % 2 ^ 32 * 2 ^ 32 + p * 2 ^ 16 + n * 2 ^ 8 + 2)) ∧
    assemble (.decu p n) = .ok (BitVec.ofInt 64 (p * 2 ^ 16 + n * 2 ^ 8 + 1)) ∧
    assemble (.decs p n) = .ok (BitVec.ofInt 64 (p * 2 ^ 16 + n * 2 ^ 8 + 3))) ∧
  (∀ v p n : Int, v < -2 ^ 31 ∨ 2 ^ 32 - 1 < v → assemble (.encu v p n) = .error (.valueRange v)) ∧
  (∀ p n : Int, p < 0 → assemble (.decu p n) = .error (.negativePin p)) ∧
  (∀ p n : Int, 65535 < p → assemble (.decu p n) = .error (.pinRange p)) ∧
  (∀ p n : Int, 0 ≤ p → p ≤ 65535 → n < 0 ∨ 255 < n → assemble (.decu p n) = .error (.nbitsRange n))

/-- R70, R71: CLRW is ENCU 0 and writes 0x00 to every slot of its window; SETW is ENCU 0xFFFFFFFF and writes 0xFF to every slot of its
window. -/
def Obligations.PseudoInstructionsFillTheWindow : Prop :=
  ∀ (s : State) (p n : Int), s.params.Admissible → 0 ≤ p → p ≤ 65535 → 1 ≤ n → n ≤ s.params.maxBits →
    p + n ≤ s.params.arrayLen →
    ∃ w w' t t', assemble (.clrw p n) = .ok w ∧ assemble (.encu 0 p n) = .ok w ∧
      assemble (.setw p n) = .ok w' ∧ assemble (.encu 0xFFFFFFFF p n) = .ok w' ∧
      performWord w s = .next t ∧ performWord w' s = .next t' ∧
      ∀ k : Nat, p ≤ k → (k : Int) < p + n → memRead t.array k = 0x00#8 ∧ memRead t'.array k = 0xFF#8
end

