-- ==== Sys2Proof/Laws/Memory.lean ====
section
/-! SUPPORT. The laws of the array: a read after a write, the canonical form kept, and equal reads of canonical arrays as equal arrays. -/

namespace Sys2Proof.Machine

theorem memRead_memErase_same (m : Memory) (k : Nat) : memRead (memErase m k) k = unlistedSlot := by
  induction m with
  | nil => rfl
  | cons c m ih =>
    obtain ⟨a, b⟩ := c
    by_cases h : a = k <;> simp_all [memErase, memRead]

theorem memRead_memErase_other (m : Memory) {k j : Nat} (h : j ≠ k) : memRead (memErase m k) j = memRead m j := by
  induction m with
  | nil => rfl
  | cons c m ih =>
    obtain ⟨a, b⟩ := c
    by_cases ha : a = k
    · have hj : a ≠ j := by omega
      simp_all [memErase, memRead]
    · simp_all [memErase, memRead]

theorem memRead_memInsert_same (m : Memory) (k : Nat) (b : Byte) (h : ∀ c ∈ m, c.1 ≠ k) :
    memRead (memInsert k b m) k = b := by
  induction m with
  | nil => simp [memInsert, memRead]
  | cons c m ih =>
    obtain ⟨a, d⟩ := c
    have ha : a ≠ k := h (a, d) (by simp)
    have hm := ih fun c hc => h c (by simp [hc])
    unfold memInsert
    split <;> simp [memRead, ha, hm]

theorem memRead_memInsert_other (m : Memory) {k j : Nat} (b : Byte) (h : j ≠ k) :
    memRead (memInsert k b m) j = memRead m j := by
  have hk : k ≠ j := h.symm
  induction m with
  | nil => simp [memInsert, memRead, hk]
  | cons c m ih =>
    obtain ⟨a, d⟩ := c
    unfold memInsert
    split <;> simp [memRead, hk, ih]

theorem not_mem_memErase (m : Memory) (k : Nat) : ∀ c ∈ memErase m k, c.1 ≠ k := by
  intro c hc
  simpa using (List.mem_filter.mp hc).2

/-- A read after a write to the same slot gives the value written. -/
@[simp] theorem memRead_memWrite_same (m : Memory) (k : Nat) (b : Byte) : memRead (memWrite m k b) k = b := by
  unfold memWrite
  split
  · rename_i h; rw [memRead_memErase_same, h]
  · exact memRead_memInsert_same _ _ _ (not_mem_memErase m k)

/-- A write leaves every other slot alone. -/
theorem memRead_memWrite_other (m : Memory) {k j : Nat} (b : Byte) (h : j ≠ k) :
    memRead (memWrite m k b) j = memRead m j := by
  unfold memWrite
  split
  · exact memRead_memErase_other m h
  · rw [memRead_memInsert_other _ b h, memRead_memErase_other m h]

theorem memRead_memWrite (m : Memory) (k j : Nat) (b : Byte) :
    memRead (memWrite m k b) j = if j = k then b else memRead m j := by
  by_cases h : j = k
  · subst h; simp
  · rw [memRead_memWrite_other m b h, if_neg h]

theorem mem_memInsert {k : Nat} {b : Byte} {m : Memory} {c : Host.Cell} :
    c ∈ memInsert k b m ↔ c = (k, b) ∨ c ∈ m := by
  induction m with
  | nil => simp [memInsert]
  | cons d m ih =>
    obtain ⟨a, e⟩ := d
    unfold memInsert
    split <;> simp [ih, or_left_comm]

theorem memErase_wf {m : Memory} (h : Memory.wf m) (k : Nat) : Memory.wf (memErase m k) :=
  ⟨h.1.sublist (List.filter_sublist.map _), fun c hc => h.2 c (List.mem_filter.mp hc).1⟩

theorem memInsert_wf {m : Memory} (h : Memory.wf m) {k : Nat} {b : Byte} (hk : ∀ c ∈ m, c.1 ≠ k) (hb : b ≠ unlistedSlot) :
    Memory.wf (memInsert k b m) := by
  refine ⟨?_, fun c hc => ?_⟩
  · induction m with
    | nil => simp [memInsert]
    | cons d m ih =>
      obtain ⟨a, e⟩ := d
      have hp := h.1
      simp only [List.map_cons, List.pairwise_cons] at hp
      have ha : a ≠ k := hk (a, e) (by simp)
      have ih' := ih ⟨hp.2, fun c hc => h.2 c (by simp [hc])⟩ fun c hc => hk c (by simp [hc])
      unfold memInsert
      split
      · rename_i hlt
        simp only [List.map_cons, List.pairwise_cons, List.mem_cons]
        exact ⟨fun x hx => hx.elim (fun e => e ▸ hlt) fun hx => hlt.trans (hp.1 x hx), hp⟩
      · rename_i hlt
        simp only [List.map_cons, List.pairwise_cons]
        refine ⟨fun x hx => ?_, ih'⟩
        obtain ⟨c, hc, rfl⟩ := List.mem_map.mp hx
        rcases mem_memInsert.mp hc with rfl | hc
        · exact lt_of_le_of_ne (not_lt.mp hlt) ha
        · exact hp.1 _ (List.mem_map.mpr ⟨c, hc, rfl⟩)
  · rcases mem_memInsert.mp hc with rfl | hc
    · exact hb
    · exact h.2 c hc

/-- A write keeps the canonical form. -/
theorem memWrite_wf {m : Memory} (h : Memory.wf m) (k : Nat) (b : Byte) : Memory.wf (memWrite m k b) := by
  unfold memWrite
  split
  · exact memErase_wf h k
  · exact memInsert_wf (memErase_wf h k) (not_mem_memErase m k) ‹_›

/-- A write lists no slot but the one written and those listed before. -/
theorem mem_memWrite {m : Memory} {k : Nat} {b : Byte} {c : Host.Cell} (h : c ∈ memWrite m k b) : c.1 = k ∨ c ∈ m := by
  unfold memWrite at h
  split at h
  · exact .inr (List.mem_filter.mp h).1
  · rcases mem_memInsert.mp h with rfl | h
    · exact .inl rfl
    · exact .inr (List.mem_filter.mp h).1

theorem memRead_of_forall_ne {m : Memory} {k : Nat} (h : ∀ c ∈ m, c.1 ≠ k) : memRead m k = unlistedSlot := by
  induction m with
  | nil => rfl
  | cons d m ih =>
    obtain ⟨a, b⟩ := d
    have ha : a ≠ k := h (a, b) (by simp)
    simp [memRead, ha, ih fun c hc => h c (by simp [hc])]

theorem memWf_tail {d : Host.Cell} {m : Memory} (h : Memory.wf (d :: m)) : Memory.wf m ∧ ∀ c ∈ m, d.1 < c.1 := by
  have hp := h.1
  simp only [List.map_cons, List.pairwise_cons] at hp
  exact ⟨⟨hp.2, fun c hc => h.2 c (by simp [hc])⟩, fun c hc => hp.1 _ (List.mem_map.mpr ⟨c, hc, rfl⟩)⟩

/-- Canonical arrays that read the same at every slot are the same list. -/
theorem memory_ext {m m' : Memory} (h : Memory.wf m) (h' : Memory.wf m') (hr : ∀ k, memRead m k = memRead m' k) : m = m' := by
  induction m generalizing m' with
  | nil =>
    cases m' with
    | nil => rfl
    | cons d m' =>
      exact absurd (by simpa [memRead] using (hr d.1).symm) (h'.2 d (by simp))
  | cons c m ih =>
    obtain ⟨a, b⟩ := c
    have hb : b ≠ unlistedSlot := h.2 (a, b) (by simp)
    obtain ⟨hm, hlt⟩ := memWf_tail h
    cases m' with
    | nil => exact absurd (by simpa [memRead] using hr a) hb
    | cons d m' =>
      obtain ⟨a', b'⟩ := d
      have hb' : b' ≠ unlistedSlot := h'.2 (a', b') (by simp)
      obtain ⟨hm', hlt'⟩ := memWf_tail h'
      have haa : a = a' := by
        rcases lt_trichotomy a a' with hl | he | hl
        · refine absurd ?_ hb
          have : memRead ((a', b') :: m') a = unlistedSlot := by
            apply memRead_of_forall_ne
            intro c hc
            rcases List.mem_cons.mp hc with rfl | hc
            · exact hl.ne'
            · exact (hl.trans (hlt' c hc)).ne'
          have e := hr a
          rw [this] at e
          simpa [memRead] using e
        · exact he
        · refine absurd ?_ hb'
          have : memRead ((a, b) :: m) a' = unlistedSlot := by
            apply memRead_of_forall_ne
            intro c hc
            rcases List.mem_cons.mp hc with rfl | hc
            · exact hl.ne'
            · exact (hl.trans (hlt c hc)).ne'
          have e := hr a'
          rw [this] at e
          simpa [memRead] using e.symm
      subst haa
      have hbb : b = b' := by simpa [memRead] using hr a
      subst hbb
      rw [ih hm hm' fun k => ?_]
      by_cases hk : a = k
      · subst hk
        rw [memRead_of_forall_ne fun c hc => (hlt c hc).ne', memRead_of_forall_ne fun c hc => (hlt' c hc).ne']
      · simpa [memRead, hk] using hr k

end Sys2Proof.Machine
end

