-- ==== Sys2Proof/Laws/Operands.lean ====
section
/-! SUPPORT. The small laws of the window, the slot convention, the checks and the window's value. -/

namespace Sys2Proof.Machine

@[simp] theorem mem_window {p n k : Nat} : k ∈ window p n ↔ p ≤ k ∧ k < p + n := by
  simp [window, List.mem_range'_1]

theorem window_nodup (p n : Nat) : (window p n).Nodup := by
  simpa [window] using List.nodup_range'

@[simp] theorem length_window (p n : Nat) : (window p n).length = n := by simp [window]

@[simp] theorem truthy_slotByte (b : Bool) : truthy (slotByte b) = b := by cases b <;> decide

@[simp] theorem truthy_zero : truthy 0#8 = false := rfl

theorem slotWeight_add (p n i : Nat) : slotWeight p n (p + i) = 2 ^ (n - 1 - i) := by
  simp [slotWeight]

/-- When the width and window checks pass (R103, R104). -/
theorem checkArgs_eq_ok {P : Params} {p n : Nat} :
    checkArgs P p n = .ok ↔ (1 ≤ n ∧ n ≤ P.maxBits) ∧ p + n ≤ P.arrayLen := by
  unfold checkArgs
  split
  · simp; omega
  · split <;> simp <;> omega

theorem checkArgs_eq_errBits {P : Params} {p n : Nat} : checkArgs P p n = .errBits ↔ ¬ (1 ≤ n ∧ n ≤ P.maxBits) := by
  unfold checkArgs
  split
  · simp; omega
  · split <;> simp <;> omega

theorem checkArgs_eq_errWindow {P : Params} {p n : Nat} :
    checkArgs P p n = .errWindow ↔ (1 ≤ n ∧ n ≤ P.maxBits) ∧ ¬ p + n ≤ P.arrayLen := by
  unfold checkArgs
  split
  · simp; omega
  · split <;> simp <;> omega

theorem checkArgs_ne_errRsvd (P : Params) (p n : Nat) : checkArgs P p n ≠ .errRsvd := by
  unfold checkArgs
  split
  · simp
  · split <;> simp

theorem checkWord_of_rsvd {P : Params} {w : Cmd} (h : cmdRsvd w ≠ 0#6) : checkWord P w = .errRsvd := by
  simp [checkWord, h]

theorem checkWord_of_rsvd_zero {P : Params} {w : Cmd} (h : cmdRsvd w = 0#6) :
    checkWord P w = checkArgs P (cmdPin w).toNat (cmdNbits w).toNat := by
  simp [checkWord, h]

/-- A word that passes every check. -/
theorem checkWord_eq_ok {P : Params} {w : Cmd} :
    checkWord P w = .ok ↔ cmdRsvd w = 0#6 ∧ (1 ≤ (cmdNbits w).toNat ∧ (cmdNbits w).toNat ≤ P.maxBits) ∧
      (cmdPin w).toNat + (cmdNbits w).toNat ≤ P.arrayLen := by
  by_cases h : cmdRsvd w = 0#6
  · simp [checkWord_of_rsvd_zero h, checkArgs_eq_ok, h]
  · simp [checkWord_of_rsvd h, h]

/-- The sum over the first slots of a window, one slot longer. -/
theorem sum_range_succ_map (f : Nat → Nat) (i : Nat) :
    ((List.range (i + 1)).map f).sum = ((List.range i).map f).sum + f i := by
  simp [List.range_succ]

/-- A window one slot longer: the value doubles and the new last slot is the least significant bit. -/
theorem windowValue_succ (p n : Nat) (f : Nat → Byte) :
    windowValue p (n + 1) f = 2 * windowValue p n f + (truthy (f (p + n))).toNat := by
  unfold windowValue
  rw [sum_range_succ_map, ← List.sum_map_mul_left]
  congr 1
  · congr 1
    apply List.map_congr_left
    intro i hi
    have hi : i < n := List.mem_range.mp hi
    have e : n + 1 - 1 - i = (n - 1 - i) + 1 := by omega
    split
    · rw [e, pow_succ, Nat.mul_comm]
    · rfl
  · cases truthy (f (p + n)) <;> simp

theorem windowValue_lt (p n : Nat) (f : Nat → Byte) : windowValue p n f < 2 ^ n := by
  induction n with
  | zero => simp [windowValue]
  | succ n ih =>
    rw [windowValue_succ, pow_succ]
    cases truthy (f (p + n)) <;> simp <;> omega

/-- Bit j of the value is the slot p+n-1-j (R41, R92). -/
theorem windowValue_testBit (p n : Nat) (f : Nat → Byte) (j : Nat) :
    (windowValue p n f).testBit j = (decide (j < n) && truthy (f (p + n - 1 - j))) := by
  induction n generalizing j with
  | zero => simp [windowValue]
  | succ n ih =>
    rw [windowValue_succ]
    cases j with
    | zero =>
      cases h : truthy (f (p + n)) <;> simp [h, Nat.testBit_zero]
    | succ j =>
      have e : (2 * windowValue p n f + (truthy (f (p + n))).toNat) / 2 = windowValue p n f := by
        cases truthy (f (p + n)) <;> simp; omega
      have e' : p + (n + 1) - 1 - (j + 1) = p + n - 1 - j := by omega
      rw [Nat.testBit_succ, e, ih, e']
      simp

/-- Two arrays that a decoder sees alike in the window have the same value (R52, R93). -/
theorem windowValue_congr {p n : Nat} {f g : Nat → Byte} (h : ∀ k ∈ window p n, truthy (f k) = truthy (g k)) :
    windowValue p n f = windowValue p n g := by
  unfold windowValue
  congr 1
  apply List.map_congr_left
  intro i hi
  have hi : i < n := List.mem_range.mp hi
  rw [h (p + i) (by simp; omega)]

end Sys2Proof.Machine
end

