-- ==== Sys2Proof/Laws/State.lean ====
section
/-! SUPPORT. What each update of the state leaves in each field, so that no later proof unfolds a record update. -/

namespace Sys2Proof.Machine

section
variable (s : State) (st : Status) (v : Value)

@[simp] theorem respond_params : (respond st v s).params = s.params := rfl
@[simp] theorem respond_array : (respond st v s).array = s.array := rfl
@[simp] theorem respond_rst : (respond st v s).rst = s.rst := rfl
@[simp] theorem respond_cmdValid : (respond st v s).cmdValid = s.cmdValid := rfl
@[simp] theorem respond_cmd : (respond st v s).cmd = s.cmd := rfl
@[simp] theorem respond_cmdEarlier : (respond st v s).cmdEarlier = s.cmdEarlier := rfl
@[simp] theorem respond_memAck : (respond st v s).memAck = s.memAck := rfl
@[simp] theorem respond_respReady : (respond st v s).respReady = s.respReady := rfl
@[simp] theorem respond_current : (respond st v s).current = none := rfl
@[simp] theorem respond_memReq : (respond st v s).memReq = none := rfl
@[simp] theorem respond_resp : (respond st v s).resp = some { status := st, result := v } := rfl
@[simp] theorem respond_taken : (respond st v s).taken = s.taken := rfl
@[simp] theorem respond_otherReads : (respond st v s).otherReads = s.otherReads := rfl
@[simp] theorem respond_runFaulted : (respond st v s).runFaulted = recordFault st s.runFaulted := rfl
@[simp] theorem respond_schedule : (respond st v s).schedule = s.schedule := rfl

@[simp] theorem recordFault_ok (b : Bool) : recordFault .ok b = b := rfl

/-- A non-OK status is recorded (R109). -/
@[simp] theorem recordFault_of_ne {st : Status} (h : st ≠ .ok) (b : Bool) : recordFault st b = true := by
  cases st <;> simp_all [recordFault]

/-- What is on the record stays on it. -/
@[simp] theorem recordFault_true (st : Status) : recordFault st true = true := by cases st <;> rfl

theorem raiseStatus_eq : raiseStatus st s = respond st 0#32 s := rfl

@[simp] theorem transferred_params : (transferred s).params = s.params := rfl
@[simp] theorem transferred_array : (transferred s).array = s.array := rfl
@[simp] theorem transferred_rst : (transferred s).rst = s.rst := rfl
@[simp] theorem transferred_cmdValid : (transferred s).cmdValid = false := rfl
@[simp] theorem transferred_cmd : (transferred s).cmd = s.cmd := rfl
@[simp] theorem transferred_cmdEarlier : (transferred s).cmdEarlier = [] := rfl
@[simp] theorem transferred_memAck : (transferred s).memAck = s.memAck := rfl
@[simp] theorem transferred_respReady : (transferred s).respReady = s.respReady := rfl
@[simp] theorem transferred_current : (transferred s).current = s.current := rfl
@[simp] theorem transferred_memReq : (transferred s).memReq = s.memReq := rfl
@[simp] theorem transferred_resp : (transferred s).resp = s.resp := rfl
@[simp] theorem transferred_taken : (transferred s).taken = s.taken := rfl
@[simp] theorem transferred_otherReads : (transferred s).otherReads = s.otherReads := rfl
@[simp] theorem transferred_runFaulted : (transferred s).runFaulted = s.runFaulted := rfl
@[simp] theorem transferred_schedule : (transferred s).schedule = s.schedule := rfl

@[simp] theorem resetStep_params : (resetStep s).params = s.params := rfl
@[simp] theorem resetStep_array : (resetStep s).array = s.array := rfl
@[simp] theorem resetStep_rst : (resetStep s).rst = true := rfl
@[simp] theorem resetStep_cmdValid : (resetStep s).cmdValid = s.cmdValid := rfl
@[simp] theorem resetStep_cmd : (resetStep s).cmd = s.cmd := rfl
@[simp] theorem resetStep_cmdEarlier : (resetStep s).cmdEarlier = s.cmdEarlier := rfl
@[simp] theorem resetStep_memAck : (resetStep s).memAck = s.memAck := rfl
@[simp] theorem resetStep_respReady : (resetStep s).respReady = s.respReady := rfl
@[simp] theorem resetStep_current : (resetStep s).current = none := rfl
@[simp] theorem resetStep_memReq : (resetStep s).memReq = none := rfl
@[simp] theorem resetStep_resp : (resetStep s).resp = none := rfl
@[simp] theorem resetStep_taken : (resetStep s).taken = s.taken := rfl
@[simp] theorem resetStep_otherReads : (resetStep s).otherReads = s.otherReads := rfl
@[simp] theorem resetStep_runFaulted : (resetStep s).runFaulted = s.runFaulted := rfl
@[simp] theorem resetStep_schedule : (resetStep s).schedule = s.schedule := rfl

end

end Sys2Proof.Machine
end

