-- ==== Sys2Proof/Laws/Encoder.lean ====
section
/-! SUPPORT. What the window writes of an encoder do, said once: the array as a function, what it reads, its form; and the outcomes of
`runEncode`. -/

namespace Sys2Proof.Machine

/-- The array after the writes of the bits i-1, ..., 0 of `u` to the window (p, n). -/
def encodedArray (p n : Nat) (u : Value) : Nat → Memory → Memory
  | 0, m => m
  | i + 1, m => encodedArray p n u i (memWrite m (p + n - 1 - i) (slotByte (u.getLsbD i)))

theorem slotWrite_of_lt {s : State} {k : Nat} (h : k < s.params.arrayLen) (b : Byte) :
    slotWrite s k b = .ok { s with array := memWrite s.array k b } := by
  simp [slotWrite, h]

theorem slotRead_of_lt {s : State} {k : Nat} (h : k < s.params.arrayLen) : slotRead s k = .ok (memRead s.array k) := by
  simp [slotRead, h]

/-- Inside the array the writes succeed, and change the array alone. -/
theorem encodeWindow_eq {p n i : Nat} (u : Value) {s : State} (h : p + n ≤ s.params.arrayLen) (hi : i ≤ n) :
    encodeWindow p n u i s = .ok { s with array := encodedArray p n u i s.array } := by
  induction i generalizing s with
  | zero => rfl
  | succ i ih =>
    have hk : p + n - 1 - i < s.params.arrayLen := by omega
    simp only [encodeWindow, slotWrite_of_lt hk]
    exact ih (s := { s with array := _ }) h (by omega)

/-- What each slot reads after the writes: slot p+n-1-j holds bit j (R41, R82). -/
theorem memRead_encodedArray {p n i : Nat} (u : Value) (m : Memory) (hi : i ≤ n) (k : Nat) :
    memRead (encodedArray p n u i m) k =
      if p + n - i ≤ k ∧ k < p + n then slotByte (slotBit p n u k) else memRead m k := by
  induction i generalizing m with
  | zero => simp only [encodedArray]; rw [if_neg (by omega)]
  | succ i ih =>
    rw [encodedArray, ih _ (by omega), memRead_memWrite]
    by_cases h1 : p + n - i ≤ k ∧ k < p + n
    · rw [if_pos h1, if_pos (by omega)]
    · rw [if_neg h1]
      by_cases h2 : k = p + n - 1 - i
      · subst h2
        have e : p + n - 1 - (p + n - 1 - i) = i := by omega
        rw [if_pos rfl, if_pos (by omega)]
        simp [slotBit, e]
      · rw [if_neg h2, if_neg (by omega)]

theorem encodedArray_wf {p n i : Nat} (u : Value) {m : Memory} (h : Memory.wf m) : Memory.wf (encodedArray p n u i m) := by
  induction i generalizing m with
  | zero => exact h
  | succ i ih => exact ih (memWrite_wf h _ _)

/-- The writes list no slot outside the window that was not listed before. -/
theorem mem_encodedArray {p n i : Nat} {u : Value} {m : Memory} (hi : i ≤ n) {c : Host.Cell}
    (h : c ∈ encodedArray p n u i m) : c ∈ m ∨ (p ≤ c.1 ∧ c.1 < p + n) := by
  induction i generalizing m with
  | zero => exact .inl h
  | succ i ih =>
    rcases ih (by omega) h with h | h
    · rcases mem_memWrite h with h | h
      · exact .inr (by omega)
      · exact .inl h
    · exact .inr h

/-- Only the low n bits of the pattern are written (R83, R85). -/
theorem encodedArray_congr {p n i : Nat} {u v : Value} (h : ∀ j, j < i → u.getLsbD j = v.getLsbD j) (m : Memory) :
    encodedArray p n u i m = encodedArray p n v i m := by
  induction i generalizing m with
  | zero => rfl
  | succ i ih =>
    rw [encodedArray, encodedArray, h i (by omega)]
    exact ih (fun j hj => h j (by omega)) _

/-- An encoder whose checks pass. -/
theorem runEncode_ok {p n : Nat} (u : Value) {s : State} (h : checkArgs s.params p n = .ok) :
    runEncode p n u s = .next (respond .ok 0#32 { s with array := encodedArray p n u n s.array }) := by
  have hw := (checkArgs_eq_ok.mp h).2
  simp [runEncode, h, encodeWindow_eq u hw (le_refl n)]

/-- An encoder whose checks fail. -/
theorem runEncode_raise {p n : Nat} (u : Value) {s : State} (h : checkArgs s.params p n ≠ .ok) :
    runEncode p n u s = .next (raiseStatus (checkArgs s.params p n) s) := by
  unfold runEncode
  split
  · contradiction
  · rfl

end Sys2Proof.Machine
end

