-- ==== Sys2Proof/Laws/Decoder.lean ====
section
/-! SUPPORT. What the window reads of a decoder give, said once, and the outcomes of `runDecode`. -/

namespace Sys2Proof.Machine

theorem decodeWindow_eq_sum {p n i : Nat} {s : State} (h : p + n ≤ s.params.arrayLen) (hi : i ≤ n) :
    decodeWindow p n s i =
      .ok ((List.range i).map fun j => if truthy (memRead s.array (p + j)) then 2 ^ (n - 1 - j) else 0).sum := by
  induction i with
  | zero => rfl
  | succ i ih =>
    have hk : p + i < s.params.arrayLen := by omega
    rw [decodeWindow, ih (by omega), slotRead_of_lt hk, sum_range_succ_map]
    by_cases ht : truthy (memRead s.array (p + i)) <;> simp [ht, slotWeight_add]

/-- Inside the array the reads succeed and give the window's value. -/
theorem decodeWindow_eq {p n : Nat} {s : State} (h : p + n ≤ s.params.arrayLen) :
    decodeWindow p n s n = .ok (windowValue p n (memRead s.array)) :=
  decodeWindow_eq_sum h (le_refl n)

/-- A decoder whose checks pass. -/
theorem runDecode_ok {p n : Nat} (conv : Nat → Value) {s : State} (h : checkArgs s.params p n = .ok) :
    runDecode p n conv s = .next (respond .ok (conv (windowValue p n (memRead s.array))) s) := by
  have hw := (checkArgs_eq_ok.mp h).2
  simp [runDecode, h, decodeWindow_eq hw]

/-- A decoder whose checks fail. -/
theorem runDecode_raise {p n : Nat} (conv : Nat → Value) {s : State} (h : checkArgs s.params p n ≠ .ok) :
    runDecode p n conv s = .next (raiseStatus (checkArgs s.params p n) s) := by
  unfold runDecode
  split
  · contradiction
  · rfl

end Sys2Proof.Machine
end

