-- ==== Sys2Proof/Laws/Interface.lean ====
section
/-! SUPPORT. What a command word does as one step, and what the events of a command that goes access by access do: one lemma each, and one for
a whole list of accesses. -/

namespace Sys2Proof.Machine

/-- The pattern a command stores, were it an encoder. -/
def instrPattern : Instr → Value
  | .encu v _ _ => v
  | .encs v _ n => toOffset v n.toNat
  | .decu _ _ => 0#32
  | .decs _ _ => 0#32

/-- The array after the command `i` whose checks passed. -/
def arrayAfter (i : Instr) (m : Memory) : Memory :=
  if i.isEncoder then encodedArray i.pin.toNat i.nbits.toNat (instrPattern i) i.nbits.toNat m else m

/-- RESULT of the command `i` whose checks passed. -/
def resultAfter (i : Instr) (m : Memory) : Value :=
  match i with
  | .encu _ _ _ => 0#32
  | .encs _ _ _ => 0#32
  | .decu p n => zext32 (windowValue p.toNat n.toNat (memRead m))
  | .decs p n => fromOffset (windowValue p.toNat n.toNat (memRead m)) n.toNat

/-- exec never faults and never refuses: it responds with the checks' status, having changed the array only if it is OK (R101, R105). -/
theorem exec_eq (i : Instr) (s : State) :
    exec i s =
      if checkArgs s.params i.pin.toNat i.nbits.toNat = .ok then
        .next (respond .ok (resultAfter i s.array) { s with array := arrayAfter i s.array })
      else .next (raiseStatus (checkArgs s.params i.pin.toNat i.nbits.toNat) s) := by
  cases i with
  | encu v p n =>
    split
    · exact runEncode_ok v ‹_›
    · exact runEncode_raise v ‹_›
  | encs v p n =>
    split
    · exact runEncode_ok _ ‹_›
    · exact runEncode_raise _ ‹_›
  | decu p n =>
    split
    · exact runDecode_ok _ ‹_›
    · exact runDecode_raise _ ‹_›
  | decs p n =>
    split
    · exact runDecode_ok _ ‹_›
    · exact runDecode_raise _ ‹_›

/-- The array after the word `w` was performed as one step. -/
def wordArray (P : Params) (w : Cmd) (m : Memory) : Memory :=
  if checkWord P w = .ok ∧ cmdEncodes w = true then
    encodedArray (cmdPin w).toNat (cmdNbits w).toNat (wordPattern w) (cmdNbits w).toNat m
  else m

/-- RESULT of the word `w` performed as one step. -/
def wordValue (P : Params) (w : Cmd) (m : Memory) : Value :=
  if checkWord P w = .ok ∧ cmdEncodes w = false then decodedResult w (memRead m) else 0#32

/-- Every word is answered (R64, R101): one response, its status that of the checks. -/
theorem performWord_eq (w : Cmd) (s : State) :
    performWord w s =
      .next (respond (checkWord s.params w) (wordValue s.params w s.array)
        { s with array := wordArray s.params w s.array }) := by
  unfold performWord decode
  by_cases hr : cmdRsvd w = 0#6
  · have hc := checkWord_of_rsvd_zero (P := s.params) hr
    by_cases hok : checkArgs s.params (cmdPin w).toNat (cmdNbits w).toNat = .ok <;>
    cases he : cmdEncodes w <;> cases hs : cmdSigned w <;>
      simp [hr, exec_eq, Instr.pin, Instr.nbits, hok, hc, wordValue, wordArray, he, hs, resultAfter, arrayAfter,
        Instr.isEncoder, instrPattern, decodedResult, wordPattern, raiseStatus]
  · simp [hr, checkWord_of_rsvd hr, wordValue, wordArray, raiseStatus]

/-- When a transfer takes place (R29, R30). -/
theorem transferEnabled_iff {s : State} :
    transferEnabled s = true ↔ s.cmdValid = true ∧ s.current = none ∧ s.resp = none ∧ s.rst = false := by
  simp [transferEnabled, cmdReady, busy, respValid, and_assoc]

/-- The transfer with an array that acknowledges: the whole command (R31). -/
theorem transactStep_of_ack {choice : Nat} {s : State} (he : transferEnabled s = true) (ha : s.memAck = true) :
    transactStep choice s = performWord (chosenWord s choice) (transferred s) := by simp [transactStep, he, ha]

/-- The transfer with an array that withholds: the transfer alone (R129). -/
theorem transactStep_of_withheld {choice : Nat} {s : State} (ha : s.memAck = false) :
    transactStep choice s = .next (acceptStep choice s) := by simp [transactStep, ha]

/-- No transfer, no change. -/
theorem transactStep_of_not_enabled {choice : Nat} {s : State} (he : transferEnabled s = false) :
    transactStep choice s = .next s := by simp [transactStep, acceptStep, he]

/-- What `transact` can do: the word it accepts is answered, with an array that acknowledges; else what `accept` does. -/
theorem transactStep_cases {choice : Nat} {s t : State} (h : transactStep choice s = .next t) :
    (transferEnabled s = true ∧ s.memAck = true ∧
      t = respond (checkWord s.params (chosenWord s choice)) (wordValue s.params (chosenWord s choice) s.array)
        { transferred s with array := wordArray s.params (chosenWord s choice) s.array }) ∨
    t = acceptStep choice s := by
  unfold transactStep at h
  split at h
  · rename_i he
    rw [performWord_eq] at h
    cases h
    exact .inl ⟨by simp_all, by simp_all, rfl⟩
  · cases h
    exact .inr rfl

/-- What `ack` can do: nothing, or the requested read, or the requested write. -/
theorem ackStep_cases {s t : State} (h : ackStep s = .next t) :
    t = s ∨ ∃ c m p, s.current = some c ∧ t = { s with array := m, current := some p, memReq := none } ∧
      ((∃ a, s.memReq = some (.read a) ∧ a.toNat < s.params.arrayLen ∧ m = s.array ∧
          p = accessed c a.toNat (memRead s.array a.toNat)) ∨
       (∃ a d, s.memReq = some (.write a d) ∧ a.toNat < s.params.arrayLen ∧ m = memWrite s.array a.toNat d ∧
          p = accessed c a.toNat 0#8)) := by
  unfold ackStep at h
  split at h
  · rename_i c a hc hr
    by_cases hk : a.toNat < s.params.arrayLen
    · rw [slotRead_of_lt hk] at h
      cases h
      exact .inr ⟨c, _, _, hc, rfl, .inl ⟨a, hr, hk, rfl, rfl⟩⟩
    · simp [slotRead, hk] at h
  · rename_i c a d hc hr
    by_cases hk : a.toNat < s.params.arrayLen
    · rw [slotWrite_of_lt hk] at h
      cases h
      exact .inr ⟨c, _, _, hc, rfl, .inr ⟨a, d, hr, hk, rfl, rfl⟩⟩
    · simp [slotWrite, hk] at h
  · cases h
    exact .inl rfl

/-- What another agent's write can do. -/
theorem otherWriteStep_cases {k : Nat} {b : Byte} {s t : State} (h : otherWriteStep k b s = .next t) :
    k < s.params.arrayLen ∧ t = { s with array := memWrite s.array k b } := by
  unfold otherWriteStep at h
  by_cases hk : k < s.params.arrayLen
  · rw [slotWrite_of_lt hk] at h
    cases h
    exact ⟨hk, rfl⟩
  · simp [slotWrite, hk] at h

/-- What another agent's read can do. -/
theorem otherReadStep_cases {k : Nat} {s t : State} (h : otherReadStep k s = .next t) :
    k < s.params.arrayLen ∧ t = { s with otherReads := s.otherReads ++ [(k, memRead s.array k)] } := by
  unfold otherReadStep at h
  by_cases hk : k < s.params.arrayLen
  · rw [slotRead_of_lt hk] at h
    cases h
    exact ⟨hk, rfl⟩
  · simp [slotRead, hk] at h

/-- What an edge with no event does is what one of the block's or the environment's events does, or nothing. -/
theorem idleStep_eq_event (s : State) :
    idleStep s = .next s ∨ ∃ e, idleStep s = runEvent e s ∧ s.rst = false ∧
      ((e = .ack ∧ s.memAck = true ∧ s.current ≠ none ∧ s.memReq ≠ none) ∨
       (∃ k, e = .request k ∧ s.current ≠ none ∧ s.memReq = none) ∨
       (e = .finish ∧ s.current ≠ none ∧ s.memReq = none) ∨
       (e = .take ∧ s.respReady = true ∧ s.current = none ∧ s.resp ≠ none) ∨
       (e = .transact 0 ∧ s.current = none ∧ s.resp = none)) := by
  unfold idleStep progressStep
  cases hrst : s.rst
  · simp only [Bool.false_eq_true, if_false]
    rcases hc : s.current with _ | c
    · rcases hr : s.resp with _ | r
      · exact .inr ⟨.transact 0, by simp [runEvent], by simp⟩
      · cases hy : s.respReady
        · exact .inl (by simp)
        · exact .inr ⟨.take, by simp [runEvent], by simp⟩
    · rcases hm : s.memReq with _ | m
      · rcases hp : c.pending with _ | ⟨k, ks⟩
        · exact .inr ⟨.finish, by simp [runEvent, hp], by simp⟩
        · exact .inr ⟨.request k, by simp [runEvent, hp], by simp⟩
      · cases ha : s.memAck
        · exact .inl (by simp)
        · exact .inr ⟨.ack, by simp [runEvent], by simp⟩
  · exact .inl (by simp)

/-- A step is one event, or nothing. -/
theorem step_cases {s t : State} (h : step s = .next t) :
    (∃ e rest, s.schedule = e :: rest ∧ runEvent e { s with schedule := rest } = .next t) ∨
      (s.schedule = [] ∧ (t = s ∨ ∃ e, runEvent e s = .next t)) := by
  unfold step at h
  split at h
  · rename_i hs
    rcases idleStep_eq_event s with hi | ⟨e, hi, _⟩
    · rw [hi] at h
      cases h
      exact .inr ⟨hs, .inl rfl⟩
    · exact .inr ⟨hs, .inr ⟨e, hi ▸ h⟩⟩
  · rename_i e rest hs
    exact .inl ⟨e, rest, hs, h⟩

/-- A step with no event left. -/
theorem step_of_nil {s : State} (h : s.schedule = []) : step s = idleStep s := by simp [step, h]

/-- A slot of the window of a legal word is a slot of the array. -/
theorem windowOf_lt {P : Params} {w : Cmd} {k : Nat} (h : k ∈ windowOf P w) : k < P.arrayLen := by
  unfold windowOf startProgress at h
  by_cases hok : checkWord P w = .ok
  · simp only [hok, if_true, mem_window] at h
    have := (checkWord_eq_ok.mp hok).2.2
    omega
  · simp [hok] at h

/-- A slot of an admissible array fits the port mem_addr. -/
theorem toNat_ofNat_slot {P : Params} (hP : P.Admissible) {k : Nat} (h : k < P.arrayLen) : (BitVec.ofNat 16 k).toNat = k := by
  have := hP.2.2.2
  simp only [BitVec.toNat_ofNat]
  omega

/-- What one access of the word `w` to the slot `k` does to the array. -/
def accessArray (w : Cmd) (m : Memory) (k : Nat) : Memory :=
  if cmdEncodes w then memWrite m k (encodedSlot w k) else m

/-- The value one access of the word `w` to the slot `k` hands to the sum. -/
def accessByte (w : Cmd) (m : Memory) (k : Nat) : Byte :=
  if cmdEncodes w then 0#8 else memRead m k

/-- The request that is up, acknowledged: the access is performed, and the slot is no longer pending. -/
theorem ackStep_request {s : State} {c : Progress} {k : Nat} (hP : s.params.Admissible) (hc : s.current = some c)
    (hk : k < s.params.arrayLen) (hr : s.memReq = some (requestFor c.word k)) :
    ackStep s =
      .next { s with
        array := accessArray c.word s.array k
        current := some (accessed c k (accessByte c.word s.array k))
        memReq := none } := by
  have e := toNat_ofNat_slot hP hk
  cases he : cmdEncodes c.word <;>
    simp [ackStep, hc, hr, requestFor, he, e, slotRead_of_lt hk, slotWrite_of_lt hk, accessArray, accessByte, encodedSlot]

/-- A command in progress after accesses to the slots `ks`, in that order, with nobody in between. -/
def accessedAll (c : Progress) (m : Memory) : List Nat → Progress
  | [] => c
  | k :: ks => accessedAll (accessed c k (accessByte c.word m k)) (accessArray c.word m k) ks

/-- The array after accesses of the word `w` to the slots `ks`. -/
def accessAll (w : Cmd) (m : Memory) (ks : List Nat) : Memory := ks.foldl (accessArray w) m

@[simp] theorem accessed_word (c : Progress) (k : Nat) (b : Byte) : (accessed c k b).word = c.word := rfl

@[simp] theorem accessedAll_word (c : Progress) (m : Memory) (ks : List Nat) : (accessedAll c m ks).word = c.word := by
  induction ks generalizing c m with
  | nil => rfl
  | cons k ks ih => simp [accessedAll, ih]

theorem accessedAll_pending (c : Progress) (m : Memory) (ks : List Nat) :
    (accessedAll c m ks).pending = c.pending.diff ks := by
  induction ks generalizing c m with
  | nil => simp [accessedAll]
  | cons k ks ih => simp [accessedAll, ih, accessed, List.diff_cons]

/-- A run of one step more. -/
theorem run_succ_next {s t : State} (h : step s = .next t) (n : Nat) :
    Host.Core.run Sys2Proof.core (n + 1) s = Host.Core.run Sys2Proof.core n t := by
  simp only [Host.Core.run]
  have : Sys2Proof.core.step s = .next t := h
  rw [this]

/-- A run goes on from where it has come to. -/
theorem run_add {m : Nat} {s t : State} (h : Host.Core.run Sys2Proof.core m s = .next t) (n : Nat) :
    Host.Core.run Sys2Proof.core (m + n) s = Host.Core.run Sys2Proof.core n t := by
  induction m generalizing s with
  | zero =>
    cases h
    simp
  | succ m ih =>
    cases hst : step s with
    | next u =>
      rw [show m + 1 + n = m + n + 1 by omega, run_succ_next hst]
      exact ih (run_succ_next hst m ▸ h)
    | fault f =>
      have e : Sys2Proof.core.step s = .fault f := hst
      simp [Host.Core.run, e] at h
    | refused r =>
      have e : Sys2Proof.core.step s = .refused r := hst
      simp [Host.Core.run, e] at h

/-- Accesses to the slots `ks` of the command in progress, each requested and acknowledged, take two steps each, and leave the state as
`accessAll` and `accessedAll` say. -/
theorem run_accessEvents {s : State} {c : Progress} {ks : List Nat} {rest : List Event} (n : Nat)
    (hP : s.params.Admissible) (hc : s.current = some c) (hr : s.memReq = none)
    (hn : ks.Nodup) (hks : ∀ k ∈ ks, k ∈ c.pending) (hlt : ∀ k ∈ ks, k < s.params.arrayLen) :
    Host.Core.run Sys2Proof.core (2 * ks.length + n) { s with schedule := accessEvents ks ++ rest } =
      Host.Core.run Sys2Proof.core n
        { s with
          array := accessAll c.word s.array ks
          current := some (accessedAll c s.array ks)
          schedule := rest } := by
  induction ks generalizing s c with
  | nil =>
    simp only [accessEvents, accessAll, accessedAll, List.flatMap_nil, List.nil_append, List.length_nil, List.foldl_nil]
    rw [← hc]
    simp
  | cons k ks ih =>
    have hk : k ∈ c.pending := hks k (by simp)
    have hl : k < s.params.arrayLen := hlt k (by simp)
    have hne : k ∉ ks := (List.nodup_cons.mp hn).1
    have s1 : step { s with schedule := accessEvents (k :: ks) ++ rest } =
        .next { s with memReq := some (requestFor c.word k), schedule := .ack :: (accessEvents ks ++ rest) } := by
      simp [step, accessEvents, runEvent, requestStep, hc, hr, hk]
    have s2 : step { s with memReq := some (requestFor c.word k), schedule := .ack :: (accessEvents ks ++ rest) } =
        .next { s with
          array := accessArray c.word s.array k
          current := some (accessed c k (accessByte c.word s.array k))
          memReq := none
          schedule := accessEvents ks ++ rest } := by
      simp only [step, runEvent]
      exact ackStep_request
        (s := { s with memReq := some (requestFor c.word k), schedule := accessEvents ks ++ rest }) hP hc hl rfl
    have e : 2 * (k :: ks).length + n = (2 * ks.length + n) + 1 + 1 := by simp; omega
    rw [e, run_succ_next s1, run_succ_next s2]
    have := ih (s := { s with
          array := accessArray c.word s.array k
          current := some (accessed c k (accessByte c.word s.array k))
          memReq := none }) hP rfl rfl (List.nodup_cons.mp hn).2 ?_ ?_
    · rw [this]
      simp only [accessed_word, accessedAll, accessAll, List.foldl_cons, ← hr]
    · intro j hj
      have : j ≠ k := fun h => hne (h ▸ hj)
      exact (List.mem_erase_of_ne this).mpr (hks j (by simp [hj]))
    · exact fun j hj => hlt j (by simp [hj])

/-- The state a command goes on from, access by access, once `s` has accepted the word on its port. -/
def acceptedState (s : State) : State := { transferred s with current := some (startProgress s.params s.cmd) }

/-- `accept`, then accesses to the slots `ks` with nobody in between: one step, and two for each slot. -/
theorem run_accept_accessEvents {s : State} {ks : List Nat} (n : Nat) (rest : List Event) (hP : s.params.Admissible)
    (he : transferEnabled s = true) (hr : s.memReq = none) (hn : ks.Nodup) (hks : ∀ k ∈ ks, k ∈ windowOf s.params s.cmd) :
    Host.Core.run Sys2Proof.core (2 * ks.length + n + 1) { s with schedule := .accept 0 :: (accessEvents ks ++ rest) } =
      Host.Core.run Sys2Proof.core n
        { acceptedState s with
          array := accessAll s.cmd s.array ks
          current := some (accessedAll (startProgress s.params s.cmd) s.array ks)
          schedule := rest } := by
  have h1 : step { s with schedule := .accept 0 :: (accessEvents ks ++ rest) } =
      .next { acceptedState s with schedule := accessEvents ks ++ rest } := by
    have : transferEnabled { s with schedule := accessEvents ks ++ rest } = true := he
    simp [step, runEvent, acceptStep, this, chosenWord, acceptedState, transferred]
  have h2 := run_accessEvents (s := acceptedState s) (c := startProgress s.params s.cmd) (rest := rest) n hP rfl hr hn hks
    fun k hk => windowOf_lt (hks k hk)
  rw [run_succ_next h1]
  exact h2

/-- What each slot reads after accesses to the slots `ks`: an encoder's byte in those, the old value elsewhere. -/
theorem memRead_accessAll (w : Cmd) (m : Memory) (ks : List Nat) (j : Nat) :
    memRead (accessAll w m ks) j = if cmdEncodes w = true ∧ j ∈ ks then encodedSlot w j else memRead m j := by
  induction ks generalizing m with
  | nil => simp [accessAll]
  | cons k ks ih =>
    have := ih (accessArray w m k)
    simp only [accessAll, List.foldl_cons] at this ⊢
    rw [this]
    cases he : cmdEncodes w
    · simp [accessArray, he]
    · by_cases hj : j ∈ ks
      · simp [hj]
      · by_cases hjk : j = k
        · subst hjk; simp [hj, accessArray, he]
        · simp [hj, hjk, accessArray, he, memRead_memWrite]

/-- The sum after accesses to the slots `ks`: a decoder has added the weight of each truthy one. -/
theorem accessedAll_acc (c : Progress) (m : Memory) (ks : List Nat) :
    (accessedAll c m ks).acc = c.acc +
      if cmdEncodes c.word then 0
      else (ks.map fun k => if truthy (memRead m k) then
        slotWeight (cmdPin c.word).toNat (cmdNbits c.word).toNat k else 0).sum := by
  induction ks generalizing c m with
  | nil => simp [accessedAll]
  | cons k ks ih =>
    simp only [accessedAll]
    rw [ih]
    cases he : cmdEncodes c.word
    · by_cases ht : truthy (memRead m k) <;> simp [accessed, accessByte, accessArray, he, ht]; omega
    · simp [accessed, accessByte, he]

end Sys2Proof.Machine
end

