-- ==== Sys2Proof/Laws/PerInstr.lean ====
section
/-! SUPPORT. One lemma per command about its word: the fields of an encoded command are the command's operands (30_encoding.md R55, R56). -/

namespace Sys2Proof.Laws.EncodedFields

/-- The word of `i` has a zero reserved field, `i`'s window and `i`'s direction. -/
def Statement (i : Instr) : Prop :=
  cmdRsvd (encode i) = 0#6 ∧ cmdPin (encode i) = i.pin ∧ cmdNbits (encode i) = i.nbits ∧ cmdEncodes (encode i) = i.isEncoder

/-- The fields of a packed word (R55). -/
theorem packCmd_fields (v : Value) (p : Pin) (n : Width) (op : BitVec 2) :
    cmdOp (packCmd v p n op) = op ∧ cmdRsvd (packCmd v p n op) = 0#6 ∧ cmdNbits (packCmd v p n op) = n ∧
      cmdPin (packCmd v p n op) = p ∧ cmdValue (packCmd v p n op) = v := by
  refine ⟨?_, ?_, ?_, ?_, ?_⟩ <;>
    (ext i hi
     simp only [cmdOp, cmdRsvd, cmdNbits, cmdPin, cmdValue, packCmd, BitVec.getElem_extractLsb', BitVec.getLsbD_append,
       BitVec.getLsbD_zero]
     repeat' split
     all_goals first
       | omega
       | simp [BitVec.getLsbD_eq_getElem, hi])

theorem encu (value : Value) (pin : Pin) (nbits : Width) : Statement (.encu value pin nbits) := by
  obtain ⟨ho, hr, hn, hp, _⟩ := packCmd_fields value pin nbits 0b00#2
  refine ⟨hr, hp, hn, ?_⟩
  simp only [cmdEncodes, encode, ho, Instr.isEncoder]
  decide

theorem decu (pin : Pin) (nbits : Width) : Statement (.decu pin nbits) := by
  obtain ⟨ho, hr, hn, hp, _⟩ := packCmd_fields 0#32 pin nbits 0b01#2
  refine ⟨hr, hp, hn, ?_⟩
  simp only [cmdEncodes, encode, ho, Instr.isEncoder]
  decide

theorem encs (value : Value) (pin : Pin) (nbits : Width) : Statement (.encs value pin nbits) := by
  obtain ⟨ho, hr, hn, hp, _⟩ := packCmd_fields value pin nbits 0b10#2
  refine ⟨hr, hp, hn, ?_⟩
  simp only [cmdEncodes, encode, ho, Instr.isEncoder]
  decide

theorem decs (pin : Pin) (nbits : Width) : Statement (.decs pin nbits) := by
  obtain ⟨ho, hr, hn, hp, _⟩ := packCmd_fields 0#32 pin nbits 0b11#2
  refine ⟨hr, hp, hn, ?_⟩
  simp only [cmdEncodes, encode, ho, Instr.isEncoder]
  decide

end Sys2Proof.Laws.EncodedFields
end

