-- ==== Sys2Proof/Tests/Slice0.lean ====
section
/-! SUPPORT. The model's own tests: words and results of spec/95_test_vectors.md, the smoke test of WellFormed, and for every obligation with
hypotheses a witness that meets them. -/

namespace Sys2Proof.Tests

open Sys2Proof.Machine

/-! ## Small states -/

/-- The array whose slots k, k+1, ... hold `bs`. -/
def slotsFrom (k : Nat) : List Byte → Memory
  | [] => []
  | b :: bs => if b = unlistedSlot then slotsFrom (k + 1) bs else (k, b) :: slotsFrom (k + 1) bs

/-- An idle block with MAX_BITS = 32 and an array of exactly the slots `bs`. -/
def idle (bs : List Byte) : State := { State.reset with params := ⟨32, bs.length⟩, array := slotsFrom 0 bs }

/-- The first `n` slots. -/
def slots (n : Nat) (s : State) : List Byte := (List.range n).map (memRead s.array)

/-- What one step of `w` on `s` answers, and the first `n` slots after it. -/
def answer (n : Nat) (s : State) (w : Nat) : Option (Status × Value × List Byte) :=
  match step (s.withFetchWord 64 w) with
  | .next t => t.resp.map fun r => (r.status, r.result, slots n t)
  | .fault _ => none
  | .refused _ => none

/-- `answer` for an array of exactly the slots `bs`. -/
def answerOn (bs : List Byte) (w : Nat) : Option (Status × Value × List Byte) := answer bs.length (idle bs) w

/-- The state an outcome ends in. -/
def nextOf : Host.Outcome State Fault Refusal → Option State
  | .next s => some s
  | .fault _ => none
  | .refused _ => none

/-- The slots and the response at the end of the schedule `es`, run from `s`. -/
def afterEvents (s : State) (es : List Event) : Option (List Byte × Option Response) :=
  (nextOf (Sys2Proof.core.run es.length { s with schedule := es })).map fun t => (slots s.params.arrayLen t, t.resp)

/-- A command or none. -/
def commandOf (w : Cmd) : Option Instr := (decode w).toOption

/-! ## Decoding: words written out from R55 and R56, VALUE, PIN, NBITS, RSVD and OP in turn -/

/-- 95_test_vectors.md S7: ENCU 9, 2, 4. -/
theorem test_decode_encu : commandOf (0x00000009#32 ++ 0x0002#16 ++ 0x04#8 ++ 0b000000#6 ++ 0b00#2) = some (.encu 9#32 2#16 4#8) := by
  decide

/-- 95_test_vectors.md 2.4: DECU 1, 3. -/
theorem test_decode_decu : commandOf (0x00000000#32 ++ 0x0001#16 ++ 0x03#8 ++ 0b000000#6 ++ 0b01#2) = some (.decu 1#16 3#8) := by
  decide

/-- 95_test_vectors.md P1, line 2: ENCS -3, 4, 4. -/
theorem test_decode_encs : commandOf (0xFFFFFFFD#32 ++ 0x0004#16 ++ 0x04#8 ++ 0b000000#6 ++ 0b10#2) = some (.encs 0xFFFFFFFD#32 4#16 4#8) := by
  decide

/-- 95_test_vectors.md 2.5: DECS 0, 32. -/
theorem test_decode_decs : commandOf (0x00000000#32 ++ 0x0000#16 ++ 0x20#8 ++ 0b000000#6 ++ 0b11#2) = some (.decs 0#16 32#8) := by
  decide

/-- R64: each of the six bits of RSVD makes the word no command. -/
theorem test_decode_reserved : ∀ i : Fin 6, commandOf (0x0000000500000400#64 ||| BitVec.twoPow 64 (2 + i)) = none := by
  decide

/-- The words that the spec prints for P2's CLRW and P4's SETW and ENCS, as the encoder writes them. -/
theorem test_encode : encode (.encu 0#32 0#16 6#8) = 0x0000000000000600#64 ∧ encode (.encu 0xFFFFFFFF#32 0#16 32#8) = 0xFFFFFFFF00002000#64 ∧
    encode (.encs 0xFFFFFFFE#32 0#16 32#8) = 0xFFFFFFFE00002002#64 ∧ encode (.decs 4#16 4#8) = 0x0000000000040403#64 := by
  decide

/-- The host's two entry points on the word of S7. -/
theorem test_table_word : decodeTableWord 64 0x0000000900020400 = some (.encu 9#32 2#16 4#8) ∧
    (State.reset.withFetchWord 64 0x0000000900020400).cmd = 0x0000000900020400#64 := by
  decide

/-! ## WellFormed: each check refuses an ill-formed command (R58, R103, R104) -/

theorem test_wellFormed : (Instr.encu 5#32 4#16 4#8).WellFormed ⟨32, 8⟩ := by decide
theorem test_illFormed_nbits_zero : ¬ (Instr.decu 0#16 0#8).WellFormed ⟨32, 8⟩ := by decide
theorem test_illFormed_nbits_over : ¬ (Instr.encs 5#32 0#16 33#8).WellFormed ⟨32, 64⟩ := by decide
theorem test_illFormed_window : ¬ (Instr.decs 6#16 4#8).WellFormed ⟨32, 8⟩ := by decide

/-- The window of PIN 65535 and NBITS 2 does not wrap round to slot 0 (R40; 95_test_vectors.md 2.6). -/
theorem test_illFormed_no_wrap : ¬ (Instr.decu 65535#16 2#8).WellFormed ⟨32, 65536⟩ := by decide

/-! ## The commands, one step each (95_test_vectors.md sections 1 and 2) -/

/-- S7: MSB first, and the slots beside the window keep 0x11. -/
theorem test_encu : answerOn [0x11, 0x11, 0x11, 0x11, 0x11, 0x11, 0x11, 0x11] 0x0000000900020400 =
    some (.ok, 0, [0x11, 0x11, 0xFF, 0x00, 0x00, 0xFF, 0x11, 0x11]) := by
  decide

/-- 2.2: ENCU -1, 0, 4 keeps the low bits (R83). -/
theorem test_encu_out_of_range : answerOn [0x00, 0x00, 0x00, 0x00] 0xFFFFFFFF00000400 = some (.ok, 0, [0xFF, 0xFF, 0xFF, 0xFF]) := by
  decide

/-- S2: ENCS -1, 0, 3. -/
theorem test_encs : answerOn [0x00, 0x00, 0x00] 0xFFFFFFFF00000302 = some (.ok, 0, [0x00, 0xFF, 0xFF]) := by
  decide

/-- 2.3: ENCS 0, 0, 1 (R86). -/
theorem test_encs_width_one : answerOn [0x00] 0x0000000000000102 = some (.ok, 0, [0xFF]) := by
  decide

/-- 2.4: noisy slots, with a VALUE field that is ignored (R62, R93). -/
theorem test_decu : answerOn [0x01, 0x00, 0x80, 0x7F] 0xDEADBEEF00000401 = some (.ok, 0x0000000B, [0x01, 0x00, 0x80, 0x7F]) := by
  decide

/-- 2.4: DECU 1, 3 on an offset window. -/
theorem test_decu_offset : answerOn [0xFF, 0x00, 0xFF, 0xFF, 0x00] 0x0000000000010301 =
    some (.ok, 0x00000003, [0xFF, 0x00, 0xFF, 0xFF, 0x00]) := by
  decide

/-- S3: DECS 0, 3. -/
theorem test_decs : answerOn [0x00, 0xFF, 0xFF] 0x0000000000000303 = some (.ok, 0xFFFFFFFF, [0x00, 0xFF, 0xFF]) := by
  decide

/-- 2.5: the sign slot alone. -/
theorem test_decs_noisy_sign : answerOn [0x01, 0x00, 0x00, 0x00, 0x00, 0x00, 0x00, 0x00] 0x0000000000000803 =
    some (.ok, 0, [0x01, 0x00, 0x00, 0x00, 0x00, 0x00, 0x00, 0x00]) := by
  decide

/-! ## Checks (2.6) -/

/-- Window 6..9 in 8 slots: no part of it is written. -/
theorem test_window_status : answerOn [0x5A, 0x5A, 0x5A, 0x5A, 0x5A, 0x5A, 0x5A, 0x5A] 0x0000000500060400 =
    some (.errWindow, 0, [0x5A, 0x5A, 0x5A, 0x5A, 0x5A, 0x5A, 0x5A, 0x5A]) := by
  decide

/-- The window that ends at ARRAY_LEN exactly. -/
theorem test_window_boundary : answerOn [0x5A, 0x5A, 0x5A, 0x5A, 0x5A, 0x5A, 0x5A, 0x5A] 0x0000000500040400 =
    some (.ok, 0, [0x5A, 0x5A, 0x5A, 0x5A, 0x00, 0xFF, 0x00, 0xFF]) := by
  decide

/-- RSVD before NBITS before the window, and the widths 0, 33 and 255. -/
theorem test_status_priority :
    [0x0000000000000004, 0x00000000FFFF0003, 0x00000000FFFF2103, 0x00000000000003FF, 0x0000000500000000, 0x000000000000FF01].map
        (fun w => (answerOn [0x5A, 0x5A] w).map fun a => a.1) =
      [some .errRsvd, some .errBits, some .errBits, some .errRsvd, some .errBits, some .errBits] := by
  decide

/-- RESP of (ERR_WINDOW, 0) and of (OK, 5): STATUS in bits 33:32 (R67). -/
theorem test_respWord : respWord ⟨.errWindow, 0⟩ = 0x300000000#34 ∧ respWord ⟨.ok, 5⟩ = 0x000000005#34 := by
  decide

/-! ## The converter (2.1) -/

theorem test_toOffset : (toOffset 0xFFFFFFFC 3, toOffset 4 3, toOffset 0 1, toOffset 0x80000000 32, toOffset 0x7FFFFFFF 32) =
    (0x00000000, 0x00000008, 0x00000001, 0x00000000, 0xFFFFFFFF) := by
  decide

theorem test_fromOffset : (fromOffset 0 3, fromOffset 7 3, fromOffset 1 1, fromOffset 0 32, fromOffset 0xFFFFFFFF 32) =
    (0xFFFFFFFC, 0x00000003, 0x00000000, 0x80000000, 0x7FFFFFFF) := by
  decide

/-! ## Races and reset (2.7), and the ports -/

/-- `s` with the word `w` presented. -/
def presented (s : State) (w : Cmd) : State := { s with cmdValid := true, cmd := w }

/-- Another agent clears slot 1 during DECU 0, 2: before the block reads it and after. -/
theorem test_race_decoder :
    afterEvents (presented (idle [0xFF, 0xFF]) 0x0000000000000201#64)
        [.accept 0, .otherWrite 1 0x00, .request 1, .ack, .request 0, .ack, .finish] = some ([0xFF, 0x00], some ⟨.ok, 2⟩) ∧
    afterEvents (presented (idle [0xFF, 0xFF]) 0x0000000000000201#64)
        [.accept 0, .request 1, .ack, .otherWrite 1 0x00, .request 0, .ack, .finish] = some ([0xFF, 0x00], some ⟨.ok, 3⟩) := by
  decide

/-- Another agent writes slot 0 during ENCU 0, 0, 1. -/
theorem test_race_encoder :
    afterEvents (presented (idle [0xFF]) 0x0000000000000100#64) [.accept 0, .otherWrite 0 0x33, .request 0, .ack, .finish] =
      some ([0x00], some ⟨.ok, 0⟩) ∧
    afterEvents (presented (idle [0xFF]) 0x0000000000000100#64) [.accept 0, .request 0, .ack, .otherWrite 0 0x33, .finish] =
      some ([0x33], some ⟨.ok, 0⟩) := by
  decide

/-- Reset during ENCU 15, 0, 4 after the writes of slots 3 and 1: one of the 16 arrays, and no response. -/
theorem test_reset_encoder :
    afterEvents (presented (idle [0x00, 0x00, 0x00, 0x00]) 0x0000000F00000400#64)
      [.accept 0, .request 3, .ack, .request 1, .ack, .request 0, .resetHigh] = some ([0x00, 0xFF, 0x00, 0xFF], none) := by
  decide

/-- R126: the caller changes its word; the earlier one may be accepted. A word taken back is not accepted. -/
theorem test_changed_word :
    afterEvents (idle [0x00]) [.present 0x0000000100000100#64, .present 0x0000000000000101#64, .transact 1] =
      some ([0xFF], some ⟨.ok, 0⟩) ∧
    afterEvents (idle [0x00]) [.present 0x0000000100000100#64, .withdraw, .transact 0] = some ([0x00], none) := by
  decide

/-- R125: a held response keeps the next command waiting until it is taken. -/
theorem test_backpressure :
    afterEvents (presented { idle [0x00] with resp := some ⟨.ok, 5⟩ } 0x0000000100000100#64) [.transact 0] =
      some ([0x00], some ⟨.ok, 5⟩) ∧
    afterEvents (presented { idle [0x00] with resp := some ⟨.ok, 5⟩ } 0x0000000100000100#64) [.take, .transact 0] =
      some ([0xFF], some ⟨.ok, 0⟩) := by
  decide

/-- The slots and the response after `n` edges with no event, from `s`. -/
def afterEdges (n : Nat) (s : State) : Option (List Byte × Option Response) :=
  (nextOf (Sys2Proof.core.run n { s with schedule := [] })).map fun t => (slots s.params.arrayLen t, t.resp)

/-- R67: a refused word that was accepted is answered at the next edge, by itself. -/
theorem test_refused_word_responds :
    afterEdges 1 { idle [0x00] with current := some (startProgress ⟨32, 1⟩ 0x0000000000000004#64) } = some ([0x00], some ⟨.errRsvd, 0⟩) := by
  decide

/-- R127, R129: ENCU 1, 0, 1 in progress: request, access and response take three edges if the array acknowledges, and no number of edges
if it withholds. -/
theorem test_edges :
    afterEdges 3 { idle [0x00] with current := some (startProgress ⟨32, 1⟩ 0x0000000100000100#64) } = some ([0xFF], some ⟨.ok, 0⟩) ∧
    afterEdges 9 { idle [0x00] with current := some (startProgress ⟨32, 1⟩ 0x0000000100000100#64), memAck := false } =
      some ([0x00], none) := by
  decide

/-- R129: presenting ENCU 1, 0, 1 and `transact` with mem_ack = 0 accepts the word and writes and answers nothing; once the array holds
mem_ack = 1, three edges do. -/
theorem test_transact_withheld :
    afterEvents (idle [0x00]) [.setAck false, .present 0x0000000100000100#64, .transact 0] = some ([0x00], none) ∧
    (nextOf (Sys2Proof.core.run 7 { idle [0x00] with
      schedule := [.setAck false, .present 0x0000000100000100#64, .transact 0, .setAck true] })).map (fun t => (slots 1 t, t.resp)) =
      some ([0xFF], some ⟨.ok, 0⟩) := by
  decide

/-- R109, R118: a response that is not OK and is lost to reset stays on the record of the run. -/
theorem test_record_survives_reset :
    (nextOf (Sys2Proof.core.run 2 { presented (idle [0x00]) 0x0000000000000004#64 with schedule := [.transact 0, .resetHigh] })).map
      (fun t => (t.resp, t.taken, t.runFaulted)) = some (none, [], true) := by
  decide

/-! ## The assembler (R68 to R71) -/

/-- Program P1's first two lines and P2's CLRW, with the comment, case and spacing the rules leave free. -/
theorem test_assemble :
    (assembleText "ENCU 5, 0, 4 ; window A\n\nencs -3, 4,4\nCLRW 0, 6\n.cmd 0xDEADBEEF00000401".toList).toOption =
      some [0x0000000500000400#64, 0xFFFFFFFD00040402#64, 0x0000000000000600#64, 0xDEADBEEF00000401#64] := by
  decide

/-- Lines that are refused: a value over 2^32-1, a negative pin, a pin over 65535, a width over 255, a missing operand. -/
theorem test_assemble_refused :
    ["ENCU 4294967296, 0, 4", "DECU -1, 4", "DECU 65536, 4", "DECU 0, 256", "DECS 3"].map (fun l => (assembleText l.toList).toOption) =
      [none, none, none, none, none] := by
  decide

/-! ## Witnesses: for each obligation with hypotheses, a state and operands that meet them, each clause at a value on its boundary -/

/-- Eight slots of 0x11, with ENCU 9, 2, 4 presented (S7). -/
def encReady : State := presented (idle [0x11, 0x11, 0x11, 0x11, 0x11, 0x11, 0x11, 0x11]) 0x0000000900020400#64

/-- Noisy slots, with DECU 0, 4 presented (2.4). -/
def decReady : State := presented (idle [0x01, 0x00, 0x80, 0x7F]) 0x0000000000000401#64

/-- ENCU 9, 2, 4 accepted, no slot accessed yet. -/
def encBusy : State := { idle [0x11, 0x11, 0x11, 0x11, 0x11, 0x11, 0x11, 0x11] with
  current := some ⟨0x0000000900020400#64, [2, 3, 4, 5], 0⟩ }

/-- The same with the write of slot 3 requested. -/
def encRequest : State := { encBusy with memReq := some (.write 3#16 0x00#8) }

/-- A block that holds the response (OK, 5). -/
def held : State := { idle [0x00] with resp := some ⟨.ok, 5#32⟩ }

theorem encReady_inv : encReady.Inv where
  admissible := by decide
  canonical := by decide
  inArray := by decide
  exclusive := by decide
  inReset := by decide
  earlier := by decide
  progress := nofun
  request := nofun
  held := nofun
  taken := by decide
  recorded := by rintro r (h | h) <;> cases h

theorem decReady_inv : decReady.Inv where
  admissible := by decide
  canonical := by decide
  inArray := by decide
  exclusive := by decide
  inReset := by decide
  earlier := by decide
  progress := nofun
  request := nofun
  held := nofun
  taken := by decide
  recorded := by rintro r (h | h) <;> cases h

theorem encProgress_inv : Progress.Inv ⟨32, 8⟩ ⟨0x0000000900020400#64, [2, 3, 4, 5], 0⟩ where
  inWindow := by decide
  once := by decide
  checked := by decide
  bounded := by decide

theorem encBusy_inv : encBusy.Inv where
  admissible := by decide
  canonical := by decide
  inArray := by decide
  exclusive := by decide
  inReset := by decide
  earlier := by decide
  progress := by rintro c ⟨⟩; exact encProgress_inv
  request := nofun
  held := nofun
  taken := by decide
  recorded := by rintro r (h | h) <;> cases h

theorem encRequest_inv : encRequest.Inv where
  admissible := by decide
  canonical := by decide
  inArray := by decide
  exclusive := by decide
  inReset := by decide
  earlier := by decide
  progress := by rintro c ⟨⟩; exact encProgress_inv
  request := by rintro r ⟨⟩; exact ⟨_, rfl, 3, by decide, by decide⟩
  held := nofun
  taken := by decide
  recorded := by rintro r (h | h) <;> cases h

theorem held_inv : held.Inv where
  admissible := by decide
  canonical := by decide
  inArray := by decide
  exclusive := by decide
  inReset := by decide
  earlier := by decide
  progress := nofun
  request := nofun
  held := by rintro r ⟨⟩; decide
  taken := by decide
  recorded := by rintro r (h | h) <;> cases h; decide

/-- An encoder's word, and a decoder's whose VALUE field is not zero. -/
theorem witness_EncodeOfDecodeGivesTheWordBack :
    (∃ i, decode 0x0000000900020400#64 = .ok i) ∧ (∃ i, decode 0xDEADBEEF00000401#64 = .ok i) := ⟨⟨_, rfl⟩, ⟨_, rfl⟩⟩

theorem witness_LowByteSelectsTheCommand :
    (0x0000000500000400#64).toNat % 256 = 0 ∧ (0x0000000000000401#64).toNat % 256 = 1 ∧ (0xFFFFFFFF00000302#64).toNat % 256 = 2 ∧
    (0x0000000000000303#64).toNat % 256 = 3 ∧ (0x0000000500000404#64).toNat / 4 % 64 ≠ 0 ∧ (0x00000000000003FF#64).toNat / 4 % 64 ≠ 0 := by
  decide

theorem witness_DecodersIgnoreTheValueField :
    cmdEncodes 0xDEADBEEF00000401#64 = false ∧ (0xDEADBEEF00000401#64).toNat % 2 ^ 32 = (0x0000000000000401#64).toNat % 2 ^ 32 := by
  decide

/-- Widths 1 and 32, and both ends of S(1) and S(32). -/
theorem witness_ToOffsetAddsTheBias :
    (1 ≤ 1 ∧ 1 ≤ 32 ∧ -2 ^ (1 - 1) ≤ (-1 : Int) ∧ (0 : Int) ≤ 2 ^ (1 - 1) - 1) ∧
    (1 ≤ 32 ∧ 32 ≤ 32 ∧ -2 ^ (32 - 1) ≤ (-2147483648 : Int) ∧ (2147483647 : Int) ≤ 2 ^ (32 - 1) - 1) := by
  decide

theorem witness_FromOffsetSubtractsTheBias : (1 ≤ 1 ∧ 1 ≤ 32 ∧ 1 < 2 ^ 1) ∧ (1 ≤ 32 ∧ 32 ≤ 32 ∧ 4294967295 < 2 ^ 32) := by decide
theorem witness_ToOffsetInvertsTheTopBit : (1 ≤ 1 ∧ 1 ≤ 32) ∧ (1 ≤ 32 ∧ 32 ≤ 32) := by decide
theorem witness_FromOffsetSignExtends : (1 ≤ 1 ∧ 1 ≤ 32 ∧ 0 < 2 ^ 1) ∧ (1 ≤ 32 ∧ 32 ≤ 32 ∧ 4294967295 < 2 ^ 32) := by decide

theorem witness_ConverterInverseLaws :
    (1 ≤ 1 ∧ 1 ≤ 32 ∧ -2 ^ (1 - 1) ≤ (-1 : Int) ∧ (-1 : Int) ≤ 2 ^ (1 - 1) - 1 ∧ 1 < 2 ^ 1) ∧
    (1 ≤ 32 ∧ 32 ≤ 32 ∧ -2 ^ (32 - 1) ≤ (-2147483648 : Int) ∧ (-2147483648 : Int) ≤ 2 ^ (32 - 1) - 1 ∧ 4294967295 < 2 ^ 32) := by
  decide

/-- A status that is OK, and one that is not. -/
theorem witness_ChecksInPriorityOrder :
    (∃ t, performWord 0x0000000900020400#64 encReady = .next t ∧ t.resp = some ⟨.ok, 0⟩) ∧
    ∃ t, performWord 0x0000000900060400#64 encReady = .next t ∧ t.resp = some ⟨.errWindow, 0⟩ := ⟨⟨_, rfl, rfl⟩, ⟨_, rfl, rfl⟩⟩

/-- A window that leaves the array by one slot; the same word accepted, with its slots still to access. -/
theorem witness_FaultedCommandTouchesNoSlot :
    (∃ t, performWord 0x0000000900050400#64 encReady = .next t ∧ t.resp = some ⟨.errWindow, 0⟩) ∧
    checkWord encReady.params 0x0000000900050400#64 ≠ .ok ∧
    ({ encReady with current := some (startProgress encReady.params 0x0000000900050400#64) } : State).current =
      some (startProgress encReady.params 0x0000000900050400#64) := ⟨⟨_, rfl, rfl⟩, by decide, rfl⟩

/-- Each of the four premises: non-OK, an encoder's, an OK decoder's. -/
theorem witness_EveryCommandWordIsAnswered :
    (∃ t, performWord 0x0000000000000004#64 encReady = .next t ∧ t.resp = some ⟨.errRsvd, 0⟩) ∧
    cmdEncodes 0x0000000900020400#64 = true ∧ cmdEncodes 0x0000000000000401#64 = false := ⟨⟨_, rfl, rfl⟩, rfl, rfl⟩

theorem witness_FaultLeavesNoStickyState : checkWord encReady.params 0x0000000500002100#64 = .errBits := by decide

/-- A word answered ERR_BITS by a whole command and, access by access, at its last edge; a state whose run has faulted, which is reset; and
a state whose run has not, which faults. -/
theorem witness_NonOkStatusIsAFaultOfTheRun :
    (checkWord encReady.params 0x0000000500000000#64 ≠ .ok ∧ ∃ t, performWord 0x0000000500000000#64 encReady = .next t) ∧
    (encReady.resp = none ∧ ∃ t, step { encReady with cmdValid := false, current := some (startProgress encReady.params 0x0000000500000000#64) } = .next t ∧
      t.resp = some ⟨.errBits, 0#32⟩) ∧
    (∃ t, step { encReady with runFaulted := true, schedule := [.resetHigh] } = .next t) ∧
    encReady.runFaulted = false ∧ ∃ t, step (presented encReady 0x0000000000000004#64) = .next t ∧ t.runFaulted = true :=
  ⟨⟨by decide, _, rfl⟩, ⟨rfl, _, rfl, rfl⟩, ⟨_, rfl⟩, rfl, _, rfl, rfl⟩

/-- A word of ENCU, a legal command up to the last slot, and the checks of `ChecksComeFirst` one past each bound. -/
theorem witness_EncuWritesItsWindow :
    (0x0000000500000400#64).toNat % 256 = 0 ∧ (Instr.encu 5#32 4#16 4#8).WellFormed encReady.params ∧
    cmdRsvd 0x0000000500000404#64 ≠ 0#6 ∧ ¬ (Instr.encu 5#32 0#16 33#8).NbitsLegal encReady.params ∧
    (Instr.encu 5#32 5#16 4#8).NbitsLegal encReady.params ∧ ¬ (Instr.encu 5#32 5#16 4#8).WindowLegal encReady.params := by
  decide

theorem witness_EncsWritesItsWindow :
    (0xFFFFFFFF00000302#64).toNat % 256 = 2 ∧ (Instr.encs 0xFFFFFFFF#32 7#16 1#8).WellFormed encReady.params ∧ encReady.params.Admissible ∧
    cmdRsvd 0x0000000500000406#64 ≠ 0#6 ∧ ¬ (Instr.encs 5#32 0#16 0#8).NbitsLegal encReady.params ∧
    (Instr.encs 5#32 8#16 1#8).NbitsLegal encReady.params ∧ ¬ (Instr.encs 5#32 8#16 1#8).WindowLegal encReady.params := by
  decide

/-- 15 and -1 agree in their low four bits (R83). -/
theorem witness_EncodersKeepTheLowBits :
    encReady.params.Admissible ∧ (0x0000000F#32).toNat % 2 ^ (4#8).toNat = (0xFFFFFFFF#32).toNat % 2 ^ (4#8).toNat ∧
    (Instr.encu 0x0000000F#32 4#16 4#8).WellFormed encReady.params := by
  decide

/-- The last slot at width 1, and an array of exactly 32 slots. -/
theorem witness_EncodersAtTheWidthExtremes :
    (encReady.params.Admissible ∧ (7#16).toNat + 1 ≤ encReady.params.arrayLen) ∧
    (Params.Admissible ⟨32, 32⟩ ∧ (⟨32, 32⟩ : Params).maxBits = 32 ∧ (0#16).toNat + 32 ≤ (⟨32, 32⟩ : Params).arrayLen) := by
  decide

/-- An encoder that is performed, the slots next to its window, and one that is not performed. -/
theorem witness_EncoderFrame :
    (Instr.encu 9#32 2#16 4#8).isEncoder = true ∧ (∃ t, exec (.encu 9#32 2#16 4#8) encReady = .next t) ∧
    (1 < (2#16).toNat ∨ (2#16).toNat + (4#8).toNat ≤ 1) ∧ (6 < (2#16).toNat ∨ (2#16).toNat + (4#8).toNat ≤ 6) ∧
    ¬ (Instr.encs 9#32 5#16 4#8).WellFormed encReady.params ∧ ∃ t, exec (.encs 9#32 5#16 4#8) encReady = .next t :=
  ⟨rfl, ⟨_, rfl⟩, by decide, by decide, by decide, _, rfl⟩

/-- Overlapping windows 2..5 and 5..7. -/
theorem witness_LaterEncoderWinsInTheOverlap :
    (Instr.encu 9#32 2#16 4#8).isEncoder = true ∧ (Instr.encs 0#32 5#16 3#8).isEncoder = true ∧
    (Instr.encu 9#32 2#16 4#8).WellFormed encReady.params ∧ (Instr.encs 0#32 5#16 3#8).WellFormed encReady.params := by
  decide

theorem witness_DecuReturnsTheWindow :
    decReady.params.Admissible ∧ (0x0000000000000401#64).toNat % 256 = 1 ∧ (Instr.decu 0#16 4#8).WellFormed decReady.params ∧
    cmdRsvd 0x0000000000000405#64 ≠ 0#6 ∧ ¬ (Instr.decu 0#16 255#8).NbitsLegal decReady.params ∧
    (Instr.decu 1#16 4#8).NbitsLegal decReady.params ∧ ¬ (Instr.decu 1#16 4#8).WindowLegal decReady.params := by
  decide

theorem witness_DecsReturnsTheSignedWindow :
    decReady.params.Admissible ∧ (0x0000000000000403#64).toNat % 256 = 3 ∧ (Instr.decs 3#16 1#8).WellFormed decReady.params ∧
    cmdRsvd 0x0000000000000407#64 ≠ 0#6 ∧ ¬ (Instr.decs 0#16 0#8).NbitsLegal decReady.params ∧
    (Instr.decs 4#16 1#8).NbitsLegal decReady.params ∧ ¬ (Instr.decs 4#16 1#8).WindowLegal decReady.params := by
  decide

/-- Noisy slots and the canonical slots they read as. -/
theorem witness_DecodersSeeOnlyZeroOrNonzero :
    (Instr.decu 0#16 4#8).isEncoder = false ∧ decReady.params = (idle [0xFF, 0x00, 0xFF, 0xFF]).params ∧
    ∀ k, (Instr.decu 0#16 4#8).pin.toNat ≤ k → k < (Instr.decu 0#16 4#8).pin.toNat + (Instr.decu 0#16 4#8).nbits.toNat →
      (memRead decReady.array k = 0x00#8 ↔ memRead (idle [0xFF, 0x00, 0xFF, 0xFF]).array k = 0x00#8) := by
  refine ⟨rfl, rfl, fun k _ hk => ?_⟩
  have hk4 : k < 4 := hk
  interval_cases k <;> decide

theorem witness_DecsAtTheWidthExtremes :
    (decReady.params.Admissible ∧ (3#16).toNat + 1 ≤ decReady.params.arrayLen) ∧
    (Params.Admissible ⟨32, 32⟩ ∧ (⟨32, 32⟩ : Params).maxBits = 32 ∧ (0#16).toNat + 32 ≤ (⟨32, 32⟩ : Params).arrayLen) := by
  decide

/-- DECU 0, 4, and a state that has changed elsewhere but not in the window. -/
theorem witness_DecoderFrame :
    (Instr.decu 0#16 4#8).isEncoder = false ∧ (∃ t, exec (.decu 0#16 4#8) decReady = .next t ∧ t.array = decReady.array) ∧
    ({ decReady with otherReads := [(0, 0x01#8)] } : State).params = decReady.params ∧
    ∀ k ∈ List.range 4, memRead ({ decReady with otherReads := [(0, 0x01#8)] } : State).array k = memRead decReady.array k :=
  ⟨rfl, ⟨_, rfl, rfl⟩, rfl, by decide⟩

theorem witness_UnsignedRoundTrip :
    (Instr.encu 15#32 4#16 4#8).WellFormed encReady.params ∧ (15#32).toNat < 2 ^ (4#8).toNat ∧
    ∃ t, exec (.encu 15#32 4#16 4#8) encReady = .next t ∧ t.params = encReady.params := ⟨by decide, by decide, _, rfl, rfl⟩

/-- -8 is the least number of S(4). -/
theorem witness_SignedRoundTrip :
    encReady.params.Admissible ∧ (Instr.encs 0xFFFFFFF8#32 4#16 4#8).WellFormed encReady.params ∧
    -2 ^ ((4#8).toNat - 1) ≤ (-8 : Int) ∧ (-8 : Int) ≤ 2 ^ ((4#8).toNat - 1) - 1 ∧ 0xFFFFFFF8#32 = BitVec.ofInt 32 (-8) := by
  decide

theorem witness_MixedSignedness : encReady.params.Admissible ∧ (Instr.encu 0xFFFFFFFF#32 0#16 3#8).WellFormed encReady.params := by decide

theorem witness_ReencodingNormalisesTheWindow : decReady.params.Admissible ∧ (Instr.decu 0#16 4#8).WellFormed decReady.params := by decide

/-- The slot before the window, the slot after it, two arrays that agree on it only, and two windows that touch. -/
theorem witness_DisjointWindowsAreIndependent :
    (∃ t, exec (.encu 9#32 2#16 4#8) encReady = .next t) ∧ (1 < (2#16).toNat ∨ (2#16).toNat + (4#8).toNat ≤ 6) ∧
    (idle [0x01, 0x00]).params = (idle [0x01, 0x05]).params ∧ memRead (idle [0x01, 0x00]).array 0 = memRead (idle [0x01, 0x05]).array 0 ∧
    ((Instr.encu 9#32 2#16 4#8).pin.toNat + (Instr.encu 9#32 2#16 4#8).nbits.toNat ≤ (Instr.decu 6#16 2#8).pin.toNat) :=
  ⟨⟨_, rfl⟩, by decide, rfl, rfl, by decide⟩

/-- Two arrays that differ outside the window of DECU 0, 1, and an encoder's word that is OK. -/
theorem witness_CommandDependsOnWordParamsAndWindow :
    (idle [0x01, 0x00]).params = (idle [0x01, 0x05]).params ∧ cmdEncodes 0x0000000000000101#64 = false ∧
    (∀ k ∈ window (cmdPin 0x0000000000000101#64).toNat (cmdNbits 0x0000000000000101#64).toNat,
      memRead (idle [0x01, 0x00]).array k = memRead (idle [0x01, 0x05]).array k) ∧
    cmdEncodes 0x0000000000000100#64 = true ∧ checkWord (idle [0x01, 0x00]).params 0x0000000000000100#64 = .ok := by
  decide

theorem witness_ConfigurationNeverChanges : ∃ t, step encReady = .next t ∧ t ≠ encReady := ⟨_, rfl, by decide⟩

theorem witness_StepKeepsTheInvariant : encRequest.Inv ∧ ∃ t, step { encRequest with schedule := [.ack] } = .next t :=
  ⟨encRequest_inv, _, rfl⟩

/-- A fault (another agent reads the first slot that does not exist) and a refusal. -/
theorem witness_OnlyOtherAgentsLeaveTheArray :
    encReady.Inv ∧ step { encReady with schedule := [.otherRead 8] } = .fault (.slotOutOfRange 8) ∧
    step { encReady with schedule := [.sample] } = .refused .respNotValid := ⟨encReady_inv, rfl, rfl⟩

/-- Each of the ways in which a slot changes: another agent's write, and an acknowledgement and a transfer, each by its event and at an edge
with no event. -/
theorem witness_ArrayChangesOnlyByWrites :
    encReady.Inv ∧ encRequest.Inv ∧
    (∃ t, step { encReady with schedule := [.otherWrite 7 0x33] } = .next t ∧ memRead t.array 7 ≠ memRead encReady.array 7) ∧
    (∃ t, step { encRequest with schedule := [.ack] } = .next t ∧ memRead t.array 3 ≠ memRead encRequest.array 3) ∧
    (∃ t, step encRequest = .next t ∧ memRead t.array 3 ≠ memRead encRequest.array 3) ∧
    (∃ t, step { encReady with schedule := [.transact 0] } = .next t ∧ memRead t.array 2 ≠ memRead encReady.array 2) ∧
    ∃ t, step encReady = .next t ∧ memRead t.array 5 ≠ memRead encReady.array 5 :=
  ⟨encReady_inv, encRequest_inv, ⟨_, rfl, by decide⟩, ⟨_, rfl, by decide⟩, ⟨_, rfl, by decide⟩, ⟨_, rfl, by decide⟩, ⟨_, rfl, by decide⟩⟩

/-- With an array that acknowledges, and with one that withholds. -/
theorem witness_StepRunsTheDecodedCommand :
    transferEnabled encReady = true ∧ decode encReady.cmd = .ok (.encu 9#32 2#16 4#8) ∧ encReady.memAck = true ∧
    transferEnabled { encReady with memAck := false } = true := ⟨by decide, rfl, rfl, by decide⟩

/-- With an array that acknowledges, and with one that withholds. -/
theorem witness_StepAnswersReservedWords :
    transferEnabled (presented encReady 0x00000000000003FF#64) = true ∧ cmdRsvd (presented encReady 0x00000000000003FF#64).cmd ≠ 0#6 ∧
    (presented encReady 0x00000000000003FF#64).memAck = true ∧
    transferEnabled { presented encReady 0x00000000000003FF#64 with memAck := false } = true ∧
    (presented encReady 0x00000000000003FF#64).memReq = none := by
  decide

/-- A command in progress; a response held, with another agent's write as the event. -/
theorem witness_BackpressureHoldsTheCommand :
    (encBusy.current ≠ none ∨ encBusy.resp ≠ none) ∧ held.resp = some ⟨.ok, 5#32⟩ ∧ held.current = none ∧
    ∃ t, step { held with schedule := [.otherWrite 0 0x01] } = .next t := ⟨by decide, rfl, rfl, _, rfl⟩

theorem witness_ResetClearsTheInterface : ({ encBusy with rst := true } : State).rst = true := rfl

theorem witness_ResponseTransfer : held.resp = some ⟨.ok, 5#32⟩ ∧ held.current = none ∧ held.rst = false ∧ encReady.resp = none := by decide

/-- With an array that acknowledges, and with one that withholds. -/
theorem witness_EitherWordMayBeAccepted :
    cmdReady (idle [0x00]) = true ∧ (idle [0x00]).cmdValid = false ∧ (idle [0x00]).cmdEarlier = [] ∧ (idle [0x00]).memAck = true ∧
    cmdReady { idle [0x00] with memAck := false } = true := by
  decide

/-- A request that waits while another agent writes the very slot. -/
theorem witness_SlotRequestStaysStable :
    encRequest.Inv ∧ encRequest.memReq = some (.write 3#16 0x00#8) ∧ Event.otherWrite 3 0x33 ≠ .ack ∧
    Event.otherWrite 3 0x33 ≠ .resetHigh ∧ ∃ t, step { encRequest with schedule := [.otherWrite 3 0x33] } = .next t :=
  ⟨encRequest_inv, rfl, by decide, by decide, _, rfl⟩

/-- Accesses still to make, and a request that is not acknowledged; the block tries to finish. A word presented
to an array that withholds, at an edge with no event and by `transact`. -/
theorem witness_NoResponseBeforeEveryAccess :
    encBusy.resp = none ∧ encBusy.current = some ⟨0x0000000900020400#64, [2, 3, 4, 5], 0⟩ ∧ encRequest.memReq ≠ none ∧
    (∃ t, step { encBusy with schedule := [.finish] } = .next t) ∧
    encReady.current = none ∧ encReady.resp = none ∧ (∃ t, step { encReady with memAck := false } = .next t) ∧
    ∃ t, step { encReady with memAck := false, schedule := [.transact 0] } = .next t :=
  ⟨rfl, rfl, by decide, ⟨_, rfl⟩, rfl, rfl, ⟨_, rfl⟩, _, rfl⟩

/-- Each of the three hangs of R130, in a state with the invariant. -/
theorem witness_HangIsNotAFault :
    (State.Inv { encRequest with memAck := false } ∧ State.Hangs { encRequest with memAck := false }) ∧ (held.Inv ∧ held.Hangs) ∧
    (State.Inv { encReady with rst := true } ∧ State.Hangs { encReady with rst := true }) ∧ encReady.schedule = [] :=
  ⟨⟨{ encRequest_inv with }, .inr (.inl (by decide))⟩, ⟨held_inv, .inr (.inr (by decide))⟩,
    ⟨{ encReady_inv with inReset := by decide }, .inl rfl⟩, rfl⟩

/-- A command in progress when the schedule is over, from a state with two events still to come. -/
theorem witness_FairRunResponds :
    encReady.Inv ∧ ∃ t c, Sys2Proof.core.run 2 { encReady with schedule := [.accept 0, .setReady true] } = .next t ∧
      t.current = some c ∧ t.memAck = true ∧ t.respReady = true := ⟨encReady_inv, _, _, rfl, rfl, rfl, rfl⟩

/-- A command in progress, and the next word presented. -/
theorem witness_FairRunEnds :
    State.Inv { encBusy with respReady := true, cmdValid := true } ∧ State.Fair { encBusy with respReady := true, cmdValid := true } ∧
    encBusy.schedule = [] := ⟨{ encBusy_inv with earlier := by decide }, ⟨rfl, rfl, rfl⟩, rfl⟩

theorem witness_AcknowledgedCommandResponds :
    encBusy.Inv ∧ encBusy.current = some ⟨0x0000000900020400#64, [2, 3, 4, 5], 0⟩ ∧ encBusy.memReq = none := ⟨encBusy_inv, rfl, rfl⟩

/-- A word with a status that is not OK, one that is OK, a slot that is owed and one that is not. -/
theorem witness_EachWindowSlotIsAccessedOnce :
    checkWord ⟨32, 8⟩ 0x0000000900050400#64 ≠ .ok ∧ checkWord ⟨32, 8⟩ 0x0000000900040400#64 = .ok ∧ encBusy.Inv ∧
    encBusy.current = some ⟨0x0000000900020400#64, [2, 3, 4, 5], 0⟩ ∧ encBusy.memReq = none ∧ 5 ∈ [2, 3, 4, 5] ∧ 6 ∉ [2, 3, 4, 5] :=
  ⟨by decide, by decide, encBusy_inv, rfl, rfl, by decide, by decide⟩

/-- The order the source's prose suggests: the last slot first. -/
theorem witness_AnyAccessOrderMatchesOneStep :
    encReady.Inv ∧ transferEnabled encReady = true ∧ [5, 4, 3, 2].Perm (windowOf encReady.params encReady.cmd) ∧ encReady.memAck = true :=
  ⟨encReady_inv, by decide, by decide, rfl⟩

theorem witness_ResetAbandonsTheCommand :
    (encReady.Inv ∧ transferEnabled encReady = true ∧ [5, 3].Nodup ∧ ∀ k ∈ [5, 3], k ∈ windowOf encReady.params encReady.cmd) ∧
    held.resp = some ⟨.ok, 5#32⟩ := ⟨⟨encReady_inv, by decide, by decide, by decide⟩, rfl⟩

theorem witness_RacingWriteDuringADecoder :
    decReady.Inv ∧ transferEnabled decReady = true ∧ cmdEncodes decReady.cmd = false ∧ checkWord decReady.params decReady.cmd = .ok ∧
    3 < decReady.params.arrayLen ∧ ([1, 0] ++ [3, 2]).Perm (windowOf decReady.params decReady.cmd) :=
  ⟨decReady_inv, by decide, by decide, by decide, by decide, by decide⟩

/-- A slot of the window, on either side of the race, and one outside it. -/
theorem witness_RacingWriteDuringAnEncoder :
    encReady.Inv ∧ transferEnabled encReady = true ∧ cmdEncodes encReady.cmd = true ∧ checkWord encReady.params encReady.cmd = .ok ∧
    2 < encReady.params.arrayLen ∧ 7 < encReady.params.arrayLen ∧ ([2, 3] ++ [4, 5]).Perm (windowOf encReady.params encReady.cmd) ∧
    ([4, 5] ++ [2, 3]).Perm (windowOf encReady.params encReady.cmd) :=
  ⟨encReady_inv, by decide, by decide, by decide, by decide, by decide, by decide, by decide⟩

theorem witness_RacingReadDuringAnEncoder :
    encReady.Inv ∧ transferEnabled encReady = true ∧ cmdEncodes encReady.cmd = true ∧ checkWord encReady.params encReady.cmd = .ok ∧
    5 < encReady.params.arrayLen ∧ ([2, 3] ++ [4, 5]).Perm (windowOf encReady.params encReady.cmd) :=
  ⟨encReady_inv, by decide, by decide, by decide, by decide, by decide⟩

/-- Both ends of each operand's range, and one past them. -/
theorem witness_AssembledWordsByArithmetic :
    (-2 ^ 31 ≤ (-2147483648 : Int) ∧ (-2147483648 : Int) ≤ 2 ^ 32 - 1 ∧ (4294967295 : Int) ≤ 2 ^ 32 - 1 ∧ (0 : Int) ≤ 65535 ∧ (255 : Int) ≤ 255) ∧
    ((-2147483649 : Int) < -2 ^ 31 ∧ (2 : Int) ^ 32 - 1 < 4294967296 ∧ (-1 : Int) < 0 ∧ (65535 : Int) < 65536 ∧ (255 : Int) < 256) := by
  decide

/-- The whole array of eight slots. -/
theorem witness_PseudoInstructionsFillTheWindow :
    encReady.params.Admissible ∧ (0 : Int) ≤ 0 ∧ (0 : Int) ≤ 65535 ∧ (1 : Int) ≤ 8 ∧ (8 : Int) ≤ encReady.params.maxBits ∧
    (0 : Int) + 8 ≤ encReady.params.arrayLen := by
  decide

end Sys2Proof.Tests
end

section
/-! SUPPORT. What a command word's answer depends on (10_state.md R21). -/

namespace Sys2Proof.Machine

/-- A decoder's RESULT depends only on the slots of its window (R92, R94). -/
theorem decodedResult_congr {w : Cmd} {f g : Nat → Byte}
    (h : ∀ k ∈ window (cmdPin w).toNat (cmdNbits w).toNat, f k = g k) : decodedResult w f = decodedResult w g := by
  simp only [decodedResult, windowValue_congr fun k hk => congrArg truthy (h k hk)]

/-- RESULT depends on the array only in a decoder's window: an encoder's RESULT is 0 (R82, R84). -/
theorem wordValue_congr {P : Params} {w : Cmd} {m m' : Memory}
    (h : cmdEncodes w = false → ∀ k ∈ window (cmdPin w).toNat (cmdNbits w).toNat, memRead m k = memRead m' k) :
    wordValue P w m = wordValue P w m' := by
  unfold wordValue
  split
  · next hd => exact decodedResult_congr (h hd.2)
  · rfl

/-- What an encoder that is OK leaves in a slot of its window: a byte of the word alone (R81, R82, R84). -/
theorem memRead_wordArray_window {P : Params} {w : Cmd} (m : Memory) {k : Nat} (hok : checkWord P w = .ok)
    (he : cmdEncodes w = true) (hk : k ∈ window (cmdPin w).toNat (cmdNbits w).toNat) :
    memRead (wordArray P w m) k = encodedSlot w k := by
  rw [mem_window] at hk
  rw [wordArray, if_pos ⟨hok, he⟩, memRead_encodedArray _ _ le_rfl, if_pos (by omega), encodedSlot]

/-- Settles O34: the response depends on the array only through `wordValue`, and an encoder's window holds `encodedSlot`. -/
theorem commandDependsOnWordParamsAndWindow : Obligations.CommandDependsOnWordParamsAndWindow := by
  intro s s' w hP hwin
  refine ⟨_, _, performWord_eq w s, performWord_eq w s', ?_, fun he hok k hk => ?_⟩
  · simp only [respond_resp, ← hP, wordValue_congr hwin]
  · simp only [respond_array, ← hP, memRead_wordArray_window _ hok he hk]

end Sys2Proof.Machine
end

section
/-! SUPPORT. A command and the slots outside its window: it changes none and its response depends on none (20_memory.md R52). -/

namespace Sys2Proof.Machine

/-- An encoder writes in its window only, a decoder nowhere (R88, R96). -/
theorem memRead_arrayAfter_outside (i : Instr) (m : Memory) {k : Nat}
    (hk : k < i.pin.toNat ∨ i.pin.toNat + i.nbits.toNat ≤ k) : memRead (arrayAfter i m) k = memRead m k := by
  unfold arrayAfter
  split
  · rw [memRead_encodedArray _ _ le_rfl, if_neg (by omega)]
  · rfl

/-- RESULT depends on the array in the command's window only (R92, R94). -/
theorem resultAfter_congr (i : Instr) {m m' : Memory}
    (h : ∀ k, i.pin.toNat ≤ k → k < i.pin.toNat + i.nbits.toNat → memRead m k = memRead m' k) :
    resultAfter i m = resultAfter i m' := by
  have hu : windowValue i.pin.toNat i.nbits.toNat (memRead m) = windowValue i.pin.toNat i.nbits.toNat (memRead m') :=
    windowValue_congr fun k hk => congrArg truthy (h k (mem_window.mp hk).1 (mem_window.mp hk).2)
  cases i with
  | encu v p n => rfl
  | encs v p n => rfl
  | decu p n => exact congrArg zext32 hu
  | decs p n => exact congrArg (fromOffset · n.toNat) hu

/-- The frame of a command done as one step: the parameters, and every slot outside its window. -/
theorem exec_frame {i : Instr} {s t : State} (h : exec i s = .next t) :
    t.params = s.params ∧
      ∀ k, k < i.pin.toNat ∨ i.pin.toNat + i.nbits.toNat ≤ k → memRead t.array k = memRead s.array k := by
  rw [exec_eq] at h
  split at h
  case isTrue =>
    cases h
    exact ⟨rfl, fun k hk => memRead_arrayAfter_outside i s.array hk⟩
  case isFalse =>
    cases h
    exact ⟨rfl, fun k _ => rfl⟩

/-- Every command is answered, and its response depends on the parameters and its window only. -/
theorem exec_resp_congr (i : Instr) {s s' : State} (hP : s.params = s'.params)
    (hwin : ∀ k, i.pin.toNat ≤ k → k < i.pin.toNat + i.nbits.toNat → memRead s.array k = memRead s'.array k) :
    ∃ t t', exec i s = .next t ∧ exec i s' = .next t' ∧ t.resp = t'.resp := by
  rw [exec_eq i s, exec_eq i s', ← hP]
  split
  · exact ⟨_, _, rfl, rfl, by rw [respond_resp, respond_resp, resultAfter_congr i hwin]⟩
  · exact ⟨_, _, rfl, rfl, rfl⟩

/-- Settles O33: of disjoint windows, the encoder's frame holds the decoder's whole window, so the decoder answers the same. -/
theorem disjointWindowsAreIndependent : Obligations.DisjointWindowsAreIndependent := by
  refine ⟨fun i s t k h => (exec_frame h).2 k, fun i s s' => exec_resp_congr i, fun i j s t _ _ hdisj h => ?_⟩
  obtain ⟨hparams, hslots⟩ := exec_frame h
  have houtside : ∀ k, j.pin.toNat ≤ k → k < j.pin.toNat + j.nbits.toNat →
      k < i.pin.toNat ∨ i.pin.toNat + i.nbits.toNat ≤ k := by omega
  exact exec_resp_congr j hparams.symm fun k hlo hhi => (hslots k (houtside k hlo hhi)).symm

end Sys2Proof.Machine
end

section
/-! SUPPORT. The fields of a command word as arithmetic on its value, and the operation they select (30_encoding.md R55, R56, R57, R62, R64). -/

namespace Sys2Proof.Machine

theorem toNat_cmdOp (w : Cmd) : (cmdOp w).toNat = w.toNat % 4 := by simp [cmdOp]

theorem toNat_cmdRsvd (w : Cmd) : (cmdRsvd w).toNat = w.toNat / 4 % 64 := by
  simp [cmdRsvd, Nat.shiftRight_eq_div_pow]

theorem toNat_cmdNbits (w : Cmd) : (cmdNbits w).toNat = w.toNat / 256 % 256 := by
  simp [cmdNbits, Nat.shiftRight_eq_div_pow]

theorem toNat_cmdPin (w : Cmd) : (cmdPin w).toNat = w.toNat / 65536 % 65536 := by
  simp [cmdPin, Nat.shiftRight_eq_div_pow]

theorem toNat_cmdValue (w : Cmd) : (cmdValue w).toNat = w.toNat / 4294967296 % 4294967296 := by
  simp [cmdValue, Nat.shiftRight_eq_div_pow]

/-- Settles O3: each field is a digit group of the word's value, and the five groups together are the whole of it. -/
theorem commandWordIsTheSumOfItsFields : Obligations.CommandWordIsTheSumOfItsFields := by
  intro w
  have hw : w.toNat < 18446744073709551616 := w.isLt
  rw [toNat_cmdOp, toNat_cmdRsvd, toNat_cmdNbits, toNat_cmdPin, toNat_cmdValue]
  omega

/-- CMD[7:0] below 4 is OP, and RSVD is zero (R55). -/
theorem cmdRsvd_cmdOp_of_lowByte {w : Cmd} {op : BitVec 2} (h : w.toNat % 256 = op.toNat) :
    cmdRsvd w = 0#6 ∧ cmdOp w = op := by
  have hop : op.toNat < 4 := op.isLt
  constructor
  · apply BitVec.eq_of_toNat_eq
    rw [toNat_cmdRsvd, BitVec.toNat_zero]
    omega
  · apply BitVec.eq_of_toNat_eq
    rw [toNat_cmdOp]
    omega

/-- The four operations by OP (R56). -/
def instrOfOp (op : BitVec 2) (v : Value) (p : Pin) (n : Width) : Instr :=
  if op = 0b00#2 then .encu v p n
  else if op = 0b01#2 then .decu p n
  else if op = 0b10#2 then .encs v p n
  else .decs p n

/-- A word whose RSVD is zero is the operation its OP selects (R56, R64). -/
theorem decode_of_cmdRsvd_zero {w : Cmd} (h : cmdRsvd w = 0#6) :
    decode w = .ok (instrOfOp (cmdOp w) (cmdValue w) (cmdPin w) (cmdNbits w)) := by
  have hop : ∀ op : BitVec 2, op = 0b00#2 ∨ op = 0b01#2 ∨ op = 0b10#2 ∨ op = 0b11#2 := by decide
  rcases hop (cmdOp w) with ho | ho | ho | ho <;> simp [decode, cmdEncodes, cmdSigned, instrOfOp, h, ho]

/-- A word whose RSVD is not zero is no operation (R57, R64). -/
theorem decode_of_cmdRsvd_ne_zero {w : Cmd} (h : cmdRsvd w ≠ 0#6) : decode w = .error (.reserved (cmdRsvd w)) :=
  if_pos h

theorem performWord_of_decode_ok {w : Cmd} {i : Instr} (h : decode w = .ok i) (s : State) :
    performWord w s = exec i s := by
  simp [performWord, h]

theorem performWord_of_decode_error {w : Cmd} {r : Reject} (h : decode w = .error r) (s : State) :
    performWord w s = .next (raiseStatus .errRsvd s) := by
  cases r
  simp [performWord, h]

/-- CMD[7:0] below 4 selects the operation, and performing the word is performing it (R64). -/
theorem decode_performWord_of_lowByte {w : Cmd} {op : BitVec 2} (h : w.toNat % 256 = op.toNat) (s : State) :
    decode w = .ok (instrOfOp op (cmdValue w) (cmdPin w) (cmdNbits w)) ∧
      performWord w s = exec (instrOfOp op (cmdValue w) (cmdPin w) (cmdNbits w)) s := by
  obtain ⟨hr, rfl⟩ := cmdRsvd_cmdOp_of_lowByte h
  have hd := decode_of_cmdRsvd_zero hr
  exact ⟨hd, performWord_of_decode_ok hd s⟩

/-- Settles O4: a low byte below 4 is an OP with RSVD zero; CMD[7:2] not zero is RSVD not zero, answered by `raiseStatus`. -/
theorem lowByteSelectsTheCommand : Obligations.LowByteSelectsTheCommand := by
  intro s w
  refine ⟨fun h => decode_performWord_of_lowByte (op := 0b00#2) h s,
    fun h => decode_performWord_of_lowByte (op := 0b01#2) h s,
    fun h => decode_performWord_of_lowByte (op := 0b10#2) h s,
    fun h => decode_performWord_of_lowByte (op := 0b11#2) h s, fun h => ?_⟩
  have hr : cmdRsvd w ≠ 0#6 := by
    intro h0
    rw [← toNat_cmdRsvd, h0] at h
    exact h rfl
  have hd := decode_of_cmdRsvd_ne_zero hr
  exact ⟨hd, performWord_of_decode_error hd s⟩

/-- Words that agree below bit 32 agree in every field but VALUE (R55). -/
theorem fields_congr_of_low {w w' : Cmd} (h : w.toNat % 2 ^ 32 = w'.toNat % 2 ^ 32) :
    cmdOp w = cmdOp w' ∧ cmdRsvd w = cmdRsvd w' ∧ cmdNbits w = cmdNbits w' ∧ cmdPin w = cmdPin w' := by
  refine ⟨?_, ?_, ?_, ?_⟩ <;> apply BitVec.eq_of_toNat_eq <;>
    simp only [toNat_cmdOp, toNat_cmdRsvd, toNat_cmdNbits, toNat_cmdPin] <;> omega

/-- Decoding drops the VALUE field of a decode word (R62). -/
theorem decode_congr_of_decoder {w w' : Cmd} (he : cmdEncodes w = false)
    (h : w.toNat % 2 ^ 32 = w'.toNat % 2 ^ 32) : decode w = decode w' := by
  obtain ⟨ho, hr, hn, hp⟩ := fields_congr_of_low h
  have he' : cmdEncodes w' = false := by rw [cmdEncodes, ← ho]; exact he
  have hs : cmdSigned w = cmdSigned w' := by rw [cmdSigned, cmdSigned, ho]
  rw [decode, decode, he, he', hs, hr, hn, hp]
  cases cmdSigned w' <;> rfl

/-- Settles O5: what a word does follows from what it decodes to, and a decode word decodes without its VALUE. -/
theorem decodersIgnoreTheValueField : Obligations.DecodersIgnoreTheValueField := by
  intro s w w' he h
  rw [performWord, performWord, decode_congr_of_decoder he h]

end Sys2Proof.Machine
end

section
/-! SUPPORT. An encoder's line assembled and its word performed, and the pseudo-instructions CLRW and SETW (30_encoding.md R69-R71). -/

namespace Sys2Proof.Machine

/-- Operands in range assemble to the fields that hold them (R69). -/
theorem asmEncoder_of_range (mk : Value → Pin → Width → Instr) {v : Int} {p n : Nat} (hlo : -2 ^ 31 ≤ v)
    (hhi : v ≤ 2 ^ 32 - 1) (hp : p ≤ 65535) (hn : n ≤ 255) :
    asmEncoder mk v p n = .ok (encode (mk (BitVec.ofInt 32 v) (BitVec.ofNat 16 p) (BitVec.ofNat 8 n))) := by
  have hv : asmValue v = .ok (BitVec.ofInt 32 v) := if_neg (by omega)
  have hpin : asmPin p = .ok (BitVec.ofInt 16 p) := by rw [asmPin, if_neg (by omega), if_neg (by omega)]
  have hnbits : asmNbits n = .ok (BitVec.ofInt 8 n) := if_neg (by omega)
  rw [asmEncoder, hv, hpin, hnbits, BitVec.ofInt_natCast, BitVec.ofInt_natCast]
  rfl

theorem decode_encode_encu (v : Value) (p : Pin) (n : Width) : decode (encode (.encu v p n)) = .ok (.encu v p n) := by
  obtain ⟨ho, hr, hn, hp, hv⟩ := Laws.EncodedFields.packCmd_fields v p n 0b00#2
  rw [encode, decode_of_cmdRsvd_zero hr, ho, hv, hp, hn]
  rfl

/-- The word of a well-formed ENCU is answered, and slot p+n-1-i of its window then holds the byte of VALUE's bit i (R82). -/
theorem performWord_encu_window {s : State} {v : Value} {p : Pin} {n : Width}
    (h : checkArgs s.params p.toNat n.toNat = .ok) :
    ∃ t, performWord (encode (.encu v p n)) s = .next t ∧ ∀ k, p.toNat ≤ k → k < p.toNat + n.toNat →
      memRead t.array k = slotByte (slotBit p.toNat n.toNat v k) := by
  refine ⟨_, (performWord_of_decode_ok (decode_encode_encu v p n) s).trans (runEncode_ok v h), fun k hlo hhi => ?_⟩
  rw [respond_array, memRead_encodedArray v _ le_rfl, if_pos (by omega)]

/-- Every bit of the pattern 0 is 0. -/
theorem slotBit_zero (p n k : Nat) : slotBit p n 0#32 k = false := BitVec.getLsbD_zero

/-- Every slot of a window of at most 32 slots holds a bit 1 of the pattern 0xFFFFFFFF. -/
theorem slotBit_allOnes {p n k : Nat} (hn : n ≤ 32) (hlo : p ≤ k) (hhi : k < p + n) :
    slotBit p n (BitVec.allOnes 32) k = true := by
  rw [slotBit, BitVec.getLsbD_allOnes, decide_eq_true_eq]
  omega

/-- Settles O60: CLRW and SETW are ENCU lines by definition, and every bit of 0 is SLOT_OFF, every bit of 0xFFFFFFFF SLOT_ON. -/
theorem pseudoInstructionsFillTheWindow : Obligations.PseudoInstructionsFillTheWindow := by
  intro s p n ⟨_, hmax, _, _⟩ hp0 hp hn1 hn hwin
  lift p to ℕ using hp0
  lift n to ℕ using by omega
  have epin : (BitVec.ofNat 16 p).toNat = p := by rw [BitVec.toNat_ofNat]; omega
  have enbits : (BitVec.ofNat 8 n).toNat = n := by rw [BitVec.toNat_ofNat]; omega
  have hok : checkArgs s.params (BitVec.ofNat 16 p).toNat (BitVec.ofNat 8 n).toNat = .ok := by
    rw [epin, enbits, checkArgs_eq_ok]
    omega
  have hclrw := asmEncoder_of_range .encu (v := 0) (p := p) (n := n) (by omega) (by omega) (by omega) (by omega)
  have hsetw := asmEncoder_of_range .encu (v := 0xFFFFFFFF) (p := p) (n := n) (by omega) (by omega) (by omega) (by omega)
  obtain ⟨t, ht, hoff⟩ := performWord_encu_window (v := 0#32) hok
  obtain ⟨t', ht', hon⟩ := performWord_encu_window (v := BitVec.allOnes 32) hok
  rw [epin, enbits] at hoff hon
  refine ⟨_, _, t, t', hclrw, hclrw, hsetw, hsetw, ht, ht', fun k hlo hhi => ⟨?_, ?_⟩⟩
  · rw [hoff k (by omega) (by omega), slotBit_zero]
    rfl
  · rw [hon k (by omega) (by omega), slotBit_allOnes (by omega) (by omega) (by omega)]
    rfl

end Sys2Proof.Machine
end

section
/-! SUPPORT. The offset_binary_signed_converter: its two conversions as arithmetic, as bits, and as inverses (40_offset_binary.md R75-R79). -/

namespace Sys2Proof.Machine

/-- S(n) moved up by the bias is U(n): n bits hold twice the bias (R73, R74). -/
theorem two_pow_eq_bias_add_bias {n : Nat} (h1 : 1 ≤ n) : (2 : Int) ^ n = 2 ^ (n - 1) + 2 ^ (n - 1) := by
  exact_mod_cast (Nat.two_pow_pred_add_two_pow_pred h1).symm

theorem toNat_toOffset (v : Value) (n : Nat) : (toOffset v n).toNat = (v.toNat + 2 ^ (n - 1)) % 2 ^ 32 := by
  rw [toOffset, BitVec.toNat_add, BitVec.toNat_ofNat, Nat.add_mod_mod, bias]

/-- The carry out of bit n-1 is discarded with the bits above it (R77). -/
theorem toOffset_low (v : Value) {n : Nat} (h32 : n ≤ 32) :
    (toOffset v n).toNat % 2 ^ n = (v.toNat + 2 ^ (n - 1)) % 2 ^ n := by
  rw [toNat_toOffset, Nat.mod_mod_of_dvd _ (Nat.pow_dvd_pow 2 h32)]

/-- The pattern of the integer `s`, converted: its low n bits hold s + 2^(n-1) modulo 2^n, since 2^n divides the modulus 2^32 (R75). -/
theorem toOffset_ofInt_low (s : Int) {n : Nat} (h32 : n ≤ 32) :
    (((toOffset (BitVec.ofInt 32 s) n).toNat % 2 ^ n : Nat) : Int) = (s + 2 ^ (n - 1)) % 2 ^ n := by
  have hs : ((BitVec.ofInt 32 s).toNat : Int) = s % 2 ^ 32 := by
    rw [BitVec.toNat_ofInt]
    omega
  rw [toOffset_low _ h32]
  push_cast
  rw [hs, Int.add_emod, Int.emod_emod_of_dvd _ (pow_dvd_pow 2 h32), ← Int.add_emod]

/-- The signed numbers of S(n) become those of U(n) (R75). -/
theorem toOffset_ofInt_low_of_mem {s : Int} {n : Nat} (h1 : 1 ≤ n) (h32 : n ≤ 32) (hlo : -2 ^ (n - 1) ≤ s)
    (hhi : s ≤ 2 ^ (n - 1) - 1) :
    (((toOffset (BitVec.ofInt 32 s) n).toNat % 2 ^ n : Nat) : Int) = s + 2 ^ (n - 1) := by
  have hn := two_pow_eq_bias_add_bias h1
  rw [toOffset_ofInt_low s h32, Int.emod_eq_of_lt (by omega) (by omega)]

/-- Settles O8: the adder's sum, which on S(n) stays inside U(n) and so loses nothing. -/
theorem toOffsetAddsTheBias : Obligations.ToOffsetAddsTheBias := by
  refine ⟨fun v n _ _ => toNat_toOffset v n, fun s n h1 h32 hlo hhi => ⟨toOffset_ofInt_low_of_mem h1 h32 hlo hhi, ?_⟩, rfl⟩
  have hn := two_pow_eq_bias_add_bias h1
  omega

/-- The numbers of U(n) become those of S(n) (R76). -/
theorem fromOffset_mem {u n : Nat} (h1 : 1 ≤ n) (hu : u < 2 ^ n) :
    -2 ^ (n - 1) ≤ (u : Int) - 2 ^ (n - 1) ∧ (u : Int) - 2 ^ (n - 1) ≤ 2 ^ (n - 1) - 1 := by
  have hn := two_pow_eq_bias_add_bias h1
  have hu' : (u : Int) < 2 ^ n := by exact_mod_cast hu
  omega

theorem fromOffset_eq_ofInt (u n : Nat) : fromOffset u n = BitVec.ofInt 32 ((u : Int) - 2 ^ (n - 1)) := by
  rw [fromOffset, bias, Nat.cast_pow, Nat.cast_ofNat]

/-- S(n) is within the signed 32-bit numbers, so the pattern's signed value is the number itself (R76). -/
theorem toInt_fromOffset {u n : Nat} (h1 : 1 ≤ n) (h32 : n ≤ 32) (hu : u < 2 ^ n) :
    (fromOffset u n).toInt = (u : Int) - 2 ^ (n - 1) := by
  obtain ⟨hlo, hhi⟩ := fromOffset_mem h1 hu
  have hb : (2 : Int) ^ (n - 1) ≤ 2 ^ 31 := pow_le_pow_right₀ (by decide) (by omega)
  rw [fromOffset_eq_ofInt, BitVec.toInt_ofInt_eq_self (by decide) (by omega) (by omega)]

/-- Settles O9: u - 2^(n-1) lies in S(n), and `BitVec.ofInt` delivers its pattern. -/
theorem fromOffsetSubtractsTheBias : Obligations.FromOffsetSubtractsTheBias := by
  refine ⟨fun u n h1 h32 hu => ?_, rfl⟩
  obtain ⟨hlo, hhi⟩ := fromOffset_mem h1 hu
  refine ⟨toInt_fromOffset h1 h32 hu, hlo, hhi, ?_⟩
  rw [fromOffset_eq_ofInt, BitVec.toNat_ofInt]
  omega

/-- Adding 2^m leaves the bits below m as they are and inverts bit m, the last one kept (R77). -/
theorem add_two_pow_mod_eq_xor (x m : Nat) : (x + 2 ^ m) % 2 ^ (m + 1) = (x % 2 ^ (m + 1)) ^^^ 2 ^ m := by
  apply Nat.eq_of_testBit_eq
  intro i
  rw [add_comm, Nat.testBit_mod_two_pow, Nat.testBit_xor, Nat.testBit_mod_two_pow, Nat.testBit_two_pow]
  rcases lt_trichotomy i m with hi | rfl | hi
  · simp [Nat.testBit_two_pow_add_gt hi, hi.ne']
  · simp [Nat.testBit_two_pow_add_eq]
  · simp [hi.ne, show ¬ i < m + 1 by omega]

theorem add_bias_mod_eq_xor (x : Nat) {n : Nat} (h1 : 1 ≤ n) :
    (x + 2 ^ (n - 1)) % 2 ^ n = (x % 2 ^ n) ^^^ 2 ^ (n - 1) := by
  have h := add_two_pow_mod_eq_xor x (n - 1)
  rwa [Nat.sub_add_cancel h1] at h

/-- Settles O10: modulo 2^n, adding the bias inverts bit n-1. -/
theorem toOffsetInvertsTheTopBit : Obligations.ToOffsetInvertsTheTopBit := by
  intro v n h1 h32
  rw [toOffset_low v h32, add_bias_mod_eq_xor _ h1]

/-- Sign extension gives the low n bits the value they have in S(n) (R9, R74). -/
theorem toInt_sext32_ofNat (x : Nat) {n : Nat} (h32 : n ≤ 32) :
    (sext32 n (BitVec.ofNat 32 x)).toInt = (x : Int).bmod (2 ^ n) := by
  rw [sext32, BitVec.toInt_signExtend_of_le h32, BitVec.setWidth_ofNat_of_le h32, ← BitVec.ofInt_natCast,
    BitVec.toInt_ofInt]

/-- Only the low n bits are extended (R9). -/
theorem sext32_ofNat_mod (x : Nat) {n : Nat} (h32 : n ≤ 32) :
    sext32 n (BitVec.ofNat 32 (x % 2 ^ n)) = sext32 n (BitVec.ofNat 32 x) := by
  apply BitVec.eq_of_toInt_eq
  rw [toInt_sext32_ofNat _ h32, toInt_sext32_ofNat _ h32, Int.natCast_emod, Int.emod_bmod]

/-- Settles O11: the XOR adds the bias modulo 2^n, and u + 2^(n-1) and u - 2^(n-1) differ by 2^n, with the second in S(n). -/
theorem fromOffsetSignExtends : Obligations.FromOffsetSignExtends := by
  intro u n h1 h32 hu
  obtain ⟨hlo, hhi⟩ := fromOffset_mem h1 hu
  have hn := two_pow_eq_bias_add_bias h1
  have hxor : u ^^^ 2 ^ (n - 1) = (u + 2 ^ (n - 1)) % 2 ^ n := by rw [add_bias_mod_eq_xor u h1, Nat.mod_eq_of_lt hu]
  have hbmod : ((u + 2 ^ (n - 1) : Nat) : Int).bmod (2 ^ n) = (u : Int) - 2 ^ (n - 1) := by
    rw [Int.bmod_eq_iff (Nat.two_pow_pos n)]
    push_cast
    exact ⟨by omega, by omega, -1, by omega⟩
  apply BitVec.eq_of_toInt_eq
  rw [toInt_fromOffset h1 h32 hu, hxor, sext32_ofNat_mod _ h32, toInt_sext32_ofNat _ h32, hbmod]

/-- Law (a): s + 2^(n-1) less the bias is s (R79). -/
theorem fromOffset_toOffset_of_mem {s : Int} {n : Nat} (h1 : 1 ≤ n) (h32 : n ≤ 32) (hlo : -2 ^ (n - 1) ≤ s)
    (hhi : s ≤ 2 ^ (n - 1) - 1) :
    fromOffset ((toOffset (BitVec.ofInt 32 s) n).toNat % 2 ^ n) n = BitVec.ofInt 32 s := by
  rw [fromOffset_eq_ofInt, toOffset_ofInt_low_of_mem h1 h32 hlo hhi, add_sub_cancel_right]

/-- Law (b): u - 2^(n-1) is in S(n), and the bias added again gives u (R79). -/
theorem toOffset_fromOffset_low {u n : Nat} (h1 : 1 ≤ n) (h32 : n ≤ 32) (hu : u < 2 ^ n) :
    (toOffset (fromOffset u n) n).toNat % 2 ^ n = u := by
  obtain ⟨hlo, hhi⟩ := fromOffset_mem h1 hu
  have h := toOffset_ofInt_low_of_mem h1 h32 hlo hhi
  rw [← fromOffset_eq_ofInt, sub_add_cancel] at h
  exact_mod_cast h

/-- Law (c): bit n-1, inverted by both conversions, is as it was, and the low n bits are sign-extended (R77, R78, R79). -/
theorem fromOffset_toOffset_low (v : Value) {n : Nat} (h1 : 1 ≤ n) (h32 : n ≤ 32) :
    fromOffset ((toOffset v n).toNat % 2 ^ n) n = sext32 n v := by
  rw [fromOffsetSignExtends _ n h1 h32 (Nat.mod_lt _ (Nat.two_pow_pos n)), toOffsetInvertsTheTopBit v n h1 h32,
    Nat.xor_assoc, Nat.xor_self, Nat.xor_zero, sext32_ofNat_mod _ h32, BitVec.ofNat_toNat, BitVec.setWidth_eq]

/-- Settles O12: the laws (a), (b) and (c). -/
theorem converterInverseLaws : Obligations.ConverterInverseLaws := fun _ h1 h32 =>
  ⟨fun _ => fromOffset_toOffset_of_mem h1 h32, fun _ => toOffset_fromOffset_low h1 h32,
    fun v => fromOffset_toOffset_low v h1 h32⟩

end Sys2Proof.Machine
end

section
/-! SUPPORT. A command by the outcome of its checks, and what of State it leaves alone (60_exceptions.md R101-R106; 41_encode.md R88). -/

namespace Sys2Proof.Machine

/-- A command that passes its checks is performed and answered OK. -/
theorem exec_of_wellFormed {i : Instr} {s : State} (h : i.WellFormed s.params) :
    exec i s = .next (respond .ok (resultAfter i s.array) { s with array := arrayAfter i s.array }) := by
  rw [exec_eq, if_pos (checkArgs_eq_ok.mpr h)]

/-- A command that fails a check is answered by that check's status, and nothing else happens (R105). -/
theorem exec_of_not_wellFormed {i : Instr} {s : State} (h : ¬ i.WellFormed s.params) :
    exec i s = .next (raiseStatus (checkArgs s.params i.pin.toNat i.nbits.toNat) s) := by
  rw [exec_eq, if_neg (mt checkArgs_eq_ok.mp h)]

/-- The checks of every command come in the order of R106. -/
theorem checksComeFirst (i : Instr) (s : State) : ChecksComeFirst i s where
  reserved := fun _ hr => performWord_of_decode_error (decode_of_cmdRsvd_ne_zero hr) s
  nbits := fun hn => by rw [exec_of_not_wellFormed fun h => hn h.1, checkArgs_eq_errBits.mpr hn]
  window := fun hn hw => by rw [exec_of_not_wellFormed fun h => hw h.2, checkArgs_eq_errWindow.mpr ⟨hn, hw⟩]

/-- Writing the array and responding leaves the rest of State alone, and records the status (R88, R109). -/
theorem sameElsewhere_respond (st : Status) (v : Value) (m : Memory) (s : State) :
    SameElsewhere s (respond st v { s with array := m }) where
  params := rfl
  rst := rfl
  cmdValid := rfl
  cmd := rfl
  cmdEarlier := rfl
  memAck := rfl
  respReady := rfl
  taken := rfl
  otherReads := rfl
  schedule := rfl
  record := by rintro r ⟨⟩; rfl

theorem exec_sameElsewhere {i : Instr} {s t : State} (h : exec i s = .next t) : SameElsewhere s t := by
  rw [exec_eq] at h
  split at h
  case isTrue =>
    cases h
    exact sameElsewhere_respond ..
  case isFalse =>
    cases h
    exact sameElsewhere_respond _ _ s.array s

/-- A command that fails a check changes no slot (R88, R105). -/
theorem exec_array_of_not_wellFormed {i : Instr} {s t : State} (hi : ¬ i.WellFormed s.params)
    (h : exec i s = .next t) : t.array = s.array := by
  rw [exec_of_not_wellFormed hi] at h
  cases h
  rfl

/-- Settles O22: the frame of every command, and the whole array where a check failed. -/
theorem encoderFrame : Obligations.EncoderFrame := fun _ _ _ _ h =>
  ⟨exec_sameElsewhere h, (exec_frame h).2, fun hi => exec_array_of_not_wellFormed hi h⟩

end Sys2Proof.Machine
end

section
/-! SUPPORT. What the encoders write: the bits of a pattern, of which only the low n matter (41_encode.md R81-R90). -/

namespace Sys2Proof.Machine

/-- What each slot reads after an encoder (R41, R82, R84). -/
theorem memRead_arrayAfter_encoder {i : Instr} (he : i.isEncoder = true) (m : Memory) (k : Nat) :
    memRead (arrayAfter i m) k =
      if i.pin.toNat ≤ k ∧ k < i.pin.toNat + i.nbits.toNat then
        slotByte (slotBit i.pin.toNat i.nbits.toNat (instrPattern i) k)
      else memRead m k := by
  rw [arrayAfter, if_pos he, memRead_encodedArray _ _ le_rfl, Nat.add_sub_cancel]

/-- Slot p+k of a window of n slots holds bit n-1-k (R82). -/
theorem slotBit_add (p n : Nat) (u : Value) (k : Nat) : slotBit p n u (p + k) = u.getLsbD (n - 1 - k) := by
  rw [slotBit]
  congr 1
  omega

/-- An encoder's RESULT is 0 (R82, R84, R89). -/
theorem resultAfter_encoder {i : Instr} (he : i.isEncoder = true) (m : Memory) : resultAfter i m = 0#32 := by
  cases i with
  | encu v p n => rfl
  | encs v p n => rfl
  | decu p n => cases he
  | decs p n => cases he

/-- An encoder that passes its checks writes its pattern to its window, most significant bit first, and answers (OK, 0) (R82, R84). -/
theorem exec_encoder_writes_window {i : Instr} {s : State} (he : i.isEncoder = true) (h : i.WellFormed s.params) :
    ∃ t, exec i s = .next t ∧ t.resp = some ⟨.ok, 0#32⟩ ∧ t.current = none ∧ t.memReq = none ∧ SameElsewhere s t ∧
      (∀ k, k < i.nbits.toNat → memRead t.array (i.pin.toNat + k) =
        if (instrPattern i).getLsbD (i.nbits.toNat - 1 - k) then 0xFF#8 else 0x00#8) ∧
      (∀ j, j < i.pin.toNat ∨ i.pin.toNat + i.nbits.toNat ≤ j → memRead t.array j = memRead s.array j) := by
  have ht := exec_of_wellFormed h
  refine ⟨_, ht, ?_, rfl, rfl, exec_sameElsewhere ht, fun k hk => ?_, (exec_frame ht).2⟩
  · rw [respond_resp, resultAfter_encoder he]
  · rw [respond_array, memRead_arrayAfter_encoder he, if_pos (by omega), slotBit_add]
    rfl

/-- Settles O18: the pattern of ENCU is VALUE. -/
theorem encuWritesItsWindow : Obligations.EncuWritesItsWindow := fun s v p n =>
  ⟨fun _ hw => (decode_performWord_of_lowByte (op := 0b00#2) hw s).2, checksComeFirst _ s,
    fun h => exec_encoder_writes_window (i := .encu v p n) rfl h⟩

/-- The adder's form of the pattern of ENCS (R75, R84). -/
theorem toOffset_eq_ofNat (v : Value) (n : Nat) : toOffset v n = BitVec.ofNat 32 (v.toNat + 2 ^ (n - 1)) := by
  apply BitVec.eq_of_toNat_eq
  rw [toNat_toOffset, BitVec.toNat_ofNat]

/-- The low n bits of the pattern of ENCS are those of VALUE with bit n-1 inverted (R77, R84). -/
theorem getLsbD_toOffset (v : Value) {n j : Nat} (h32 : n ≤ 32) (hj : j < n) :
    (toOffset v n).getLsbD j = (v.getLsbD j ^^ decide (n - 1 = j)) := by
  have h := congrArg (Nat.testBit · j) (toOffsetInvertsTheTopBit v n (by omega) h32)
  simpa only [Nat.testBit_mod_two_pow, Nat.testBit_xor, Nat.testBit_two_pow, hj, decide_true, Bool.true_and,
    BitVec.testBit_toNat] using h

/-- Settles O19: the pattern of ENCS is the adder's sum, whose bit n-1, the one in slot p, is inverted. -/
theorem encsWritesItsWindow : Obligations.EncsWritesItsWindow := by
  intro s v p n
  refine ⟨fun w hw => (decode_performWord_of_lowByte (op := 0b10#2) hw s).2, checksComeFirst _ s, fun h => ?_⟩
  obtain ⟨t, ht, hresp, hcur, hreq, hsame, hwin, hout⟩ := exec_encoder_writes_window (i := .encs v p n) rfl h
  refine ⟨t, ht, hresp, hcur, hreq, hsame, fun k hk => ?_, fun ⟨_, hmax, _, _⟩ k hk => ?_, hout⟩
  · rw [← toOffset_eq_ofNat]
    exact hwin k hk
  · obtain ⟨⟨_, hn⟩, _⟩ := h
    have htop : n.toNat - 1 = n.toNat - 1 - k ↔ k = 0 := by omega
    have hbit := getLsbD_toOffset v (n := n.toNat) (j := n.toNat - 1 - k) (le_trans hn hmax) (by omega)
    rw [← decide_eq_decide.mpr htop, ← hbit]
    exact hwin k hk

/-- Values that agree modulo 2^n agree in their low n bits. -/
theorem getLsbD_congr_of_mod {u v : Value} {n j : Nat} (h : u.toNat % 2 ^ n = v.toNat % 2 ^ n) (hj : j < n) :
    u.getLsbD j = v.getLsbD j := by
  have hbit := congrArg (Nat.testBit · j) h
  simpa only [Nat.testBit_mod_two_pow, hj, decide_true, Bool.true_and, BitVec.testBit_toNat] using hbit

/-- Patterns that agree in the low n bits, where the checks let them be written, give the same outcome (R83, R85). -/
theorem runEncode_congr {p n : Nat} {u v : Value} {s : State}
    (h : checkArgs s.params p n = .ok → u.toNat % 2 ^ n = v.toNat % 2 ^ n) : runEncode p n u s = runEncode p n v s := by
  by_cases hok : checkArgs s.params p n = .ok
  · rw [runEncode_ok u hok, runEncode_ok v hok, encodedArray_congr fun j hj => getLsbD_congr_of_mod (h hok) hj]
  · rw [runEncode_raise u hok, runEncode_raise v hok]

/-- Adding the bias keeps values that agree modulo 2^n in agreement (R85). -/
theorem toOffset_low_congr {u v : Value} {n : Nat} (h32 : n ≤ 32) (h : u.toNat % 2 ^ n = v.toNat % 2 ^ n) :
    (toOffset u n).toNat % 2 ^ n = (toOffset v n).toNat % 2 ^ n := by
  rw [toOffset_low u h32, toOffset_low v h32, Nat.add_mod, h, ← Nat.add_mod]

/-- Settles O20: an encoder's outcome follows from the low n bits of its pattern, and the checks do not look at VALUE. -/
theorem encodersKeepTheLowBits : Obligations.EncodersKeepTheLowBits := by
  intro s v v' p n ⟨_, hmax, _, _⟩ hlow
  refine ⟨runEncode_congr fun _ => hlow, runEncode_congr fun hok => ?_, fun h => ?_⟩
  · obtain ⟨⟨_, hn⟩, _⟩ := checkArgs_eq_ok.mp hok
    exact toOffset_low_congr (le_trans hn hmax) hlow
  · obtain ⟨t, ht, hresp, _⟩ := exec_encoder_writes_window (i := .encu v p n) rfl h
    obtain ⟨t', ht', hresp', _⟩ := exec_encoder_writes_window (i := .encs v p n) rfl h
    exact ⟨t, t', ht, hresp, ht', hresp'⟩

/-- ENCS as bits: VALUE's, with the one in slot p inverted (R84). -/
theorem exec_encs_inverts_first_slot {s : State} (hP : s.params.Admissible) (v : Value) {p : Pin} {n : Width}
    (h : (Instr.encs v p n).WellFormed s.params) :
    ∃ t, exec (.encs v p n) s = .next t ∧ ∀ k, k < n.toNat → memRead t.array (p.toNat + k) =
      if (v.getLsbD (n.toNat - 1 - k) ^^ decide (k = 0)) = true then 0xFF#8 else 0x00#8 := by
  obtain ⟨_, _, hwrites⟩ := encsWritesItsWindow s v p n
  obtain ⟨t, ht, _, _, _, _, _, hbits, _⟩ := hwrites h
  exact ⟨t, ht, hbits hP⟩

/-- Inverting bit 31 inverts the bit that goes to slot p at width 32 (R87). -/
theorem getLsbD_xor_topBit (v : Value) {k : Nat} (hk : k < 32) :
    (v ^^^ 0x80000000#32).getLsbD (31 - k) = (v.getLsbD (31 - k) ^^ decide (k = 0)) := by
  have htop : 31 = 31 - k ↔ k = 0 := by omega
  rw [BitVec.getLsbD_xor, show 0x80000000#32 = BitVec.twoPow 32 31 from rfl, BitVec.getLsbD_twoPow,
    decide_eq_decide.mpr htop]
  rfl

/-- Settles O21: at width 1 the only slot is the inverted one, and at width 32 the inverted bit is bit 31. -/
theorem encodersAtTheWidthExtremes : Obligations.EncodersAtTheWidthExtremes := by
  intro s v p hP
  refine ⟨fun hwin => ?_, fun hmax hwin => ?_⟩
  · have hmax : 1 ≤ s.params.maxBits := le_trans (by decide) hP.1
    obtain ⟨t, ht, hbits⟩ := exec_encs_inverts_first_slot hP v (p := p) (n := 1#8) ⟨⟨le_rfl, hmax⟩, hwin⟩
    have hslot : memRead t.array p.toNat = if (v.getLsbD 0 ^^ true) = true then 0xFF#8 else 0x00#8 := hbits 0 (by decide)
    refine ⟨t, ht, hslot.trans ?_⟩
    cases v.getLsbD 0 <;> rfl
  · have hlegal : (1 ≤ (32#8).toNat ∧ (32#8).toNat ≤ s.params.maxBits) ∧ p.toNat + (32#8).toNat ≤ s.params.arrayLen :=
      ⟨⟨by decide, hmax.ge⟩, hwin⟩
    obtain ⟨t, ht, _, _, _, _, hbits, _⟩ := exec_encoder_writes_window (i := .encu v p 32#8) rfl hlegal
    obtain ⟨t', ht', hbits'⟩ := exec_encs_inverts_first_slot hP v hlegal
    refine ⟨t, t', ht, ht', fun k hk => ⟨hbits k hk, ?_⟩⟩
    rw [getLsbD_xor_topBit v hk]
    exact hbits' k hk

/-- Settles O23: in its own window the second writes what it writes from any array, and elsewhere it leaves the slots as it finds them. -/
theorem laterEncoderWinsInTheOverlap : Obligations.LaterEncoderWinsInTheOverlap := by
  intro i j s _ hj hiw hjw
  refine ⟨_, _, _, exec_of_wellFormed hiw, exec_of_wellFormed hjw, exec_of_wellFormed hjw, fun k => ?_⟩
  simp only [respond_array, memRead_arrayAfter_encoder hj]
  split <;> rfl

end Sys2Proof.Machine
end

section
/-! SUPPORT. What the decoders answer: the value of their window, as a number and as bits, signed or not (42_decode.md R91-R96). -/

namespace Sys2Proof.Machine

/-- A decoder changes no slot (R96). -/
theorem arrayAfter_decoder {i : Instr} (hd : i.isEncoder = false) (m : Memory) : arrayAfter i m = m := by
  simp [arrayAfter, hd]

/-- A decoder that passes its checks answers OK and changes nothing else (R92, R94, R96). -/
theorem exec_decoder_of_wellFormed {i : Instr} {s : State} (hd : i.isEncoder = false) (h : i.WellFormed s.params) :
    exec i s = .next { s with current := none, memReq := none, resp := some ⟨.ok, resultAfter i s.array⟩ } := by
  rw [exec_of_wellFormed h, arrayAfter_decoder hd]
  rfl

/-- A width that passes the checks is one of the converter's (R6, R58, R73). -/
theorem nbits_mem_of_wellFormed {P : Params} {i : Instr} (hP : P.Admissible) (h : i.WellFormed P) :
    1 ≤ i.nbits.toNat ∧ i.nbits.toNat ≤ 32 := by
  obtain ⟨_, hmax, _, _⟩ := hP
  obtain ⟨⟨h1, hn⟩, _⟩ := h
  exact ⟨h1, le_trans hn hmax⟩

/-- U(n) is within the 32-bit values for a legal width. -/
theorem toNat_zext32 {u n : Nat} (h32 : n ≤ 32) (hu : u < 2 ^ n) : (zext32 u).toNat = u := by
  have hle : 2 ^ n ≤ 2 ^ 32 := Nat.pow_le_pow_right (by decide) h32
  rw [zext32, BitVec.toNat_ofNat, Nat.mod_eq_of_lt (by omega)]

/-- Bit j of a pattern whose low n bits are the window's value is slot p+n-1-j (R41, R92). -/
theorem getLsbD_of_low_eq_windowValue {u : Value} {p n j : Nat} {f : Nat → Byte}
    (h : u.toNat % 2 ^ n = windowValue p n f) (hj : j < n) : u.getLsbD j = truthy (f (p + n - 1 - j)) := by
  have hbit := congrArg (Nat.testBit · j) h
  simpa only [Nat.testBit_mod_two_pow, windowValue_testBit, hj, decide_true, Bool.true_and, BitVec.testBit_toNat] using hbit

/-- Settles O24: the answer is the value of the window, whose bit j is slot p+n-1-j. -/
theorem decuReturnsTheWindow : Obligations.DecuReturnsTheWindow := by
  intro s p n hP
  refine ⟨fun _ hw => (decode_performWord_of_lowByte (op := 0b01#2) hw s).2, checksComeFirst _ s, fun h => ?_⟩
  obtain ⟨_, h32⟩ : 1 ≤ n.toNat ∧ n.toNat ≤ 32 := nbits_mem_of_wellFormed hP h
  have hlt := windowValue_lt p.toNat n.toNat (memRead s.array)
  have hval := toNat_zext32 h32 hlt
  refine ⟨_, exec_decoder_of_wellFormed rfl h, hval, hval.trans_le (Nat.le_sub_one_of_lt hlt), fun j hj => ?_⟩
  exact getLsbD_of_low_eq_windowValue ((congrArg (· % 2 ^ n.toNat) hval).trans (Nat.mod_eq_of_lt hlt)) hj

/-- Slot p is the most significant bit of the window's value (R91, R92). -/
theorem two_pow_le_windowValue_iff {p n : Nat} (h1 : 1 ≤ n) (f : Nat → Byte) :
    2 ^ (n - 1) ≤ windowValue p n f ↔ truthy (f p) = true := by
  have htop : (windowValue p n f).testBit (n - 1) = truthy (f p) := by
    rw [windowValue_testBit, decide_eq_true (by omega), Bool.true_and, show p + n - 1 - (n - 1) = p by omega]
  have hlt := windowValue_lt p n f
  rw [← htop]
  refine ⟨fun hle => Nat.testBit_of_two_pow_le_and_two_pow_add_one_gt hle ?_, Nat.ge_two_pow_of_testBit⟩
  rwa [Nat.sub_add_cancel h1]

theorem truthy_iff {b : Byte} : truthy b = true ↔ b ≠ 0x00#8 := bne_iff_ne

/-- The sign of DECS's answer is the inverted bit of slot p (R94). -/
theorem toInt_fromOffset_windowValue_nonneg_iff {p n : Nat} (h1 : 1 ≤ n) (h32 : n ≤ 32) (f : Nat → Byte) :
    0 ≤ (fromOffset (windowValue p n f) n).toInt ↔ f p ≠ 0x00#8 := by
  rw [toInt_fromOffset h1 h32 (windowValue_lt p n f), sub_nonneg, ← truthy_iff, ← two_pow_le_windowValue_iff h1]
  norm_cast

/-- Settles O25: the conversion of the window's value, which is in U(n). -/
theorem decsReturnsTheSignedWindow : Obligations.DecsReturnsTheSignedWindow := by
  intro s p n hP
  refine ⟨fun _ hw => (decode_performWord_of_lowByte (op := 0b11#2) hw s).2, checksComeFirst _ s, fun h => ?_⟩
  obtain ⟨h1, h32⟩ : 1 ≤ n.toNat ∧ n.toNat ≤ 32 := nbits_mem_of_wellFormed hP h
  have hlt := windowValue_lt p.toNat n.toNat (memRead s.array)
  have hval := toInt_fromOffset h1 h32 hlt
  obtain ⟨hlo, hhi⟩ := fromOffset_mem h1 hlt
  refine ⟨_, exec_decoder_of_wellFormed rfl h, hval, hlo.trans_eq hval.symm, hval.trans_le hhi,
    fromOffsetSignExtends _ _ h1 h32 hlt, toInt_fromOffset_windowValue_nonneg_iff h1 h32 _⟩

/-- RESULT depends only on which slots of the window are nonzero (R93). -/
theorem resultAfter_congr_truthy (i : Instr) {m m' : Memory}
    (h : ∀ k ∈ window i.pin.toNat i.nbits.toNat, truthy (memRead m k) = truthy (memRead m' k)) :
    resultAfter i m = resultAfter i m' := by
  have hu := windowValue_congr h
  cases i with
  | encu v p n => rfl
  | encs v p n => rfl
  | decu p n => exact congrArg zext32 hu
  | decs p n => exact congrArg (fromOffset · n.toNat) hu

/-- Settles O26: zero in the same places is truthy in the same places, which is all that RESULT depends on. -/
theorem decodersSeeOnlyZeroOrNonzero : Obligations.DecodersSeeOnlyZeroOrNonzero := by
  intro i s s' _ hP hzero
  have hresult : resultAfter i s.array = resultAfter i s'.array :=
    resultAfter_congr_truthy i fun k hk => by
      obtain ⟨hlo, hhi⟩ := mem_window.mp hk
      rw [Bool.eq_iff_iff, truthy_iff, truthy_iff, ne_eq, ne_eq, hzero k hlo hhi]
  rw [exec_eq i s, exec_eq i s', ← hP, hresult]
  split
  · exact ⟨_, _, rfl, rfl, rfl⟩
  · exact ⟨_, _, rfl, rfl, rfl⟩

/-- A window of one slot (R95). -/
theorem windowValue_one (p : Nat) (f : Nat → Byte) : windowValue p 1 f = if f p = 0x00#8 then 0 else 1 := by
  by_cases h : f p = 0x00#8 <;> simp [windowValue, truthy, h]

/-- At width 32 the converter inverts bit 31 (R95). -/
theorem fromOffset_width32 {u : Nat} (hu : u < 2 ^ 32) : fromOffset u 32 = BitVec.ofNat 32 u ^^^ 0x80000000#32 := by
  rw [fromOffsetSignExtends u 32 (by decide) le_rfl hu, sext32, BitVec.setWidth_eq, BitVec.signExtend_eq, BitVec.ofNat_xor]
  rfl

/-- Settles O27: the converter at widths 1 and 32. -/
theorem decsAtTheWidthExtremes : Obligations.DecsAtTheWidthExtremes := by
  intro s p ⟨hmin, _, _, _⟩
  refine ⟨fun hwin => ?_, fun hmax hwin => ?_⟩
  · have hmax : 1 ≤ s.params.maxBits := le_trans (by decide) hmin
    have hlegal : (Instr.decs p 1#8).WellFormed s.params := ⟨⟨le_rfl, hmax⟩, hwin⟩
    have hresult : resultAfter (.decs p 1#8) s.array =
        if memRead s.array p.toNat = 0x00#8 then 0xFFFFFFFF#32 else 0x00000000#32 := by
      change fromOffset (windowValue p.toNat 1 _) 1 = _
      rw [windowValue_one]
      split <;> rfl
    rw [exec_decoder_of_wellFormed rfl hlegal, hresult]
  · have h1 : 1 ≤ (32#8).toNat := by decide
    have hlegal : (Instr.decs p 32#8).WellFormed s.params := ⟨⟨h1, hmax.ge⟩, hwin⟩
    have hresult : resultAfter (.decs p 32#8) s.array =
        BitVec.ofNat 32 (windowValue p.toNat 32 (memRead s.array)) ^^^ 0x80000000#32 :=
      fromOffset_width32 (windowValue_lt p.toNat 32 (memRead s.array))
    rw [exec_decoder_of_wellFormed rfl hlegal, hresult]

/-- A decoder leaves the array as it is, whatever its status (R96). -/
theorem exec_decoder_array {i : Instr} {s t : State} (hd : i.isEncoder = false) (h : exec i s = .next t) :
    t.array = s.array := by
  by_cases hi : i.WellFormed s.params
  · rw [exec_decoder_of_wellFormed hd hi] at h
    cases h
    rfl
  · exact exec_array_of_not_wellFormed hi h

/-- Settles O28: the array is the one first decoded, so the second decode meets the same window. -/
theorem decoderFrame : Obligations.DecoderFrame := by
  intro i s t hd h
  have harray := exec_decoder_array hd h
  refine ⟨harray, exec_sameElsewhere h, fun a hP hwin => ?_⟩
  obtain ⟨b, t', hb, ht', hresp⟩ := exec_resp_congr i hP (harray ▸ hwin)
  cases h.symm.trans ht'
  exact ⟨b, hb, hresp⟩

end Sys2Proof.Machine
end

section
/-! SUPPORT. Encoding and decoding the same window: the window's value is the low n bits of the pattern (42_decode.md R97-R100). -/

namespace Sys2Proof.Machine

/-- A pattern and a window of the same value agree slot by slot (R41, R92). -/
theorem slotBit_of_low_eq_windowValue {u : Value} {p n : Nat} {f : Nat → Byte} (h : u.toNat % 2 ^ n = windowValue p n f) {k : Nat}
    (hlo : p ≤ k) (hhi : k < p + n) : slotBit p n u k = truthy (f k) := by
  rw [slotBit, getLsbD_of_low_eq_windowValue h (by omega), show p + n - 1 - (p + n - 1 - k) = k by omega]

/-- The window that an encoder has written, and nobody since, has the value of the pattern's low n bits (R97). -/
theorem windowValue_of_encoded {i : Instr} (he : i.isEncoder = true) {m : Memory} {f : Nat → Byte}
    (hwin : ∀ k, i.pin.toNat ≤ k → k < i.pin.toNat + i.nbits.toNat → f k = memRead (arrayAfter i m) k) :
    windowValue i.pin.toNat i.nbits.toNat f = (instrPattern i).toNat % 2 ^ i.nbits.toNat := by
  apply Nat.eq_of_testBit_eq
  intro j
  rw [windowValue_testBit, Nat.testBit_mod_two_pow, BitVec.testBit_toNat]
  by_cases hj : j < i.nbits.toNat
  · rw [hwin _ (by omega) (by omega), memRead_arrayAfter_encoder he, if_pos (by omega), truthy_slotByte, slotBit,
      show i.pin.toNat + i.nbits.toNat - 1 - (i.pin.toNat + i.nbits.toNat - 1 - j) = j by omega]
  · simp [hj]

/-- DECU of a window whose value is known (R92). -/
theorem exec_decu_of_windowValue {p : Pin} {n : Width} {s : State} {u : Nat} (h : (Instr.decu p n).WellFormed s.params)
    (hu : windowValue p.toNat n.toNat (memRead s.array) = u) :
    exec (.decu p n) s = .next { s with current := none, memReq := none, resp := some ⟨.ok, BitVec.ofNat 32 u⟩ } :=
  hu ▸ exec_decoder_of_wellFormed rfl h

/-- DECS of a window whose value is known (R94). -/
theorem exec_decs_of_windowValue {p : Pin} {n : Width} {s : State} {u : Nat} (h : (Instr.decs p n).WellFormed s.params)
    (hu : windowValue p.toNat n.toNat (memRead s.array) = u) :
    exec (.decs p n) s = .next { s with current := none, memReq := none, resp := some ⟨.ok, fromOffset u n.toNat⟩ } :=
  hu ▸ exec_decoder_of_wellFormed rfl h

/-- Settles O29: the window's value is VALUE mod 2^n. -/
theorem unsignedRoundTrip : Obligations.UnsignedRoundTrip := by
  intro s v p n h
  refine ⟨⟨_, exec_of_wellFormed h, fun a ha hwin => ?_⟩, fun hv => ?_⟩
  · have ha : a.params = s.params := ha
    exact exec_decu_of_windowValue (ha ▸ h) (windowValue_of_encoded (i := .encu v p n) rfl hwin)
  · rw [Nat.mod_eq_of_lt hv, BitVec.ofNat_toNat, BitVec.setWidth_eq]

/-- The pattern of a number of S(n) is its own sign extension from n bits (R9, R98). -/
theorem sext32_ofInt_of_mem {z : Int} {n : Nat} (h1 : 1 ≤ n) (h32 : n ≤ 32) (hlo : -2 ^ (n - 1) ≤ z)
    (hhi : z ≤ 2 ^ (n - 1) - 1) : sext32 n (BitVec.ofInt 32 z) = BitVec.ofInt 32 z := by
  rw [← fromOffset_toOffset_low _ h1 h32, fromOffset_toOffset_of_mem h1 h32 hlo hhi]

/-- Settles O30: the window's value is the low n bits of ToOffset(VALUE, n), which the reverse conversion sign-extends. -/
theorem signedRoundTrip : Obligations.SignedRoundTrip := by
  intro s v p n hP h
  obtain ⟨h1, h32⟩ : 1 ≤ n.toNat ∧ n.toNat ≤ 32 := nbits_mem_of_wellFormed hP h
  refine ⟨⟨_, exec_of_wellFormed h, fun a ha hwin => ?_⟩, fun z hlo hhi hv => ?_⟩
  · have ha : a.params = s.params := ha
    rw [← fromOffset_toOffset_low v h1 h32]
    exact exec_decs_of_windowValue (ha ▸ h) (windowValue_of_encoded (i := .encs v p n) rfl hwin)
  · rw [hv, sext32_ofInt_of_mem h1 h32 hlo hhi]

/-- Settles O31: the window's value is the encoder's, converted as the decoder's signedness says. -/
theorem mixedSignedness : Obligations.MixedSignedness := by
  intro s v p n hP h
  obtain ⟨_, h32⟩ : 1 ≤ n.toNat ∧ n.toNat ≤ 32 := nbits_mem_of_wellFormed hP h
  refine ⟨_, _, exec_of_wellFormed (i := .encs v p n) h, exec_of_wellFormed h, fun a ha => ⟨fun hwin => ?_, fun hwin => ?_⟩⟩
  · rw [← toOffset_low v h32]
    exact exec_decu_of_windowValue (ha ▸ h) (windowValue_of_encoded (i := .encs v p n) rfl hwin)
  · exact exec_decs_of_windowValue (ha ▸ h) (windowValue_of_encoded (i := .encu v p n) rfl hwin)

/-- Encoding the value that a window has leaves each of its slots at the byte its truthiness encodes to (R100). -/
theorem memRead_arrayAfter_of_low_eq_windowValue {i : Instr} (he : i.isEncoder = true) {m : Memory}
    (h : (instrPattern i).toNat % 2 ^ i.nbits.toNat = windowValue i.pin.toNat i.nbits.toNat (memRead m)) {k : Nat}
    (hlo : i.pin.toNat ≤ k) (hhi : k < i.pin.toNat + i.nbits.toNat) :
    memRead (arrayAfter i m) k = if memRead m k = 0x00#8 then 0x00#8 else 0xFF#8 := by
  rw [memRead_arrayAfter_encoder he, if_pos ⟨hlo, hhi⟩, slotBit_of_low_eq_windowValue h hlo hhi]
  by_cases hz : memRead m k = 0x00#8 <;> simp [hz, truthy, slotByte, slotOn, slotOff]

/-- Settles O32: each encoder stores a pattern whose low n bits are the value that its decoder read. -/
theorem reencodingNormalisesTheWindow : Obligations.ReencodingNormalisesTheWindow := by
  intro s p n hP h
  obtain ⟨h1, h32⟩ : 1 ≤ n.toNat ∧ n.toNat ≤ 32 := nbits_mem_of_wellFormed hP h
  have hlt := windowValue_lt p.toNat n.toNat (memRead s.array)
  refine ⟨_, _, _, _, _, _, exec_decoder_of_wellFormed rfl h, rfl, exec_of_wellFormed h,
    exec_decoder_of_wellFormed (i := .decs p n) rfl h, rfl, exec_of_wellFormed h, fun k hlo hhi => ⟨?_, ?_⟩⟩
  · refine memRead_arrayAfter_of_low_eq_windowValue (i := .encu (zext32 _) p n) rfl ?_ hlo hhi
    exact (congrArg (· % 2 ^ n.toNat) (toNat_zext32 h32 hlt)).trans (Nat.mod_eq_of_lt hlt)
  · exact memRead_arrayAfter_of_low_eq_windowValue (i := .encs (fromOffset _ _) p n) rfl (toOffset_fromOffset_low h1 h32 hlt) hlo hhi

end Sys2Proof.Machine
end

section
/-! SUPPORT. A word by the outcome of its checks: the one status it is answered with, and a fault that leaves only its response
(60_exceptions.md R101-R108). -/

namespace Sys2Proof.Machine

/-- The code of a word's status is that of the first check that fails in the order of R106. -/
theorem statusCode_checkWord (P : Params) (w : Cmd) :
    statusCode (checkWord P w) =
      if w.toNat / 4 % 64 ≠ 0 then 1#2
      else if w.toNat / 2 ^ 8 % 2 ^ 8 = 0 ∨ P.maxBits < w.toNat / 2 ^ 8 % 2 ^ 8 then 2#2
      else if P.arrayLen < w.toNat / 2 ^ 16 % 2 ^ 16 + w.toNat / 2 ^ 8 % 2 ^ 8 then 3#2
      else 0#2 := by
  have hr : cmdRsvd w ≠ 0#6 ↔ w.toNat / 4 % 64 ≠ 0 := by rw [ne_eq, BitVec.toNat_eq, toNat_cmdRsvd]; rfl
  simp only [checkWord, checkArgs, hr, toNat_cmdNbits, toNat_cmdPin, apply_ite statusCode]
  rfl

@[simp] theorem instrOfOp_pin (op : BitVec 2) (v : Value) (p : Pin) (n : Width) : (instrOfOp op v p n).pin = p := by
  unfold instrOfOp
  split_ifs <;> rfl

@[simp] theorem instrOfOp_nbits (op : BitVec 2) (v : Value) (p : Pin) (n : Width) : (instrOfOp op v p n).nbits = n := by
  unfold instrOfOp
  split_ifs <;> rfl

/-- A word that passes every check is a well-formed command (R64, R103, R104). -/
theorem decode_of_checkWord_ok {P : Params} {w : Cmd} (h : checkWord P w = .ok) :
    ∃ i, decode w = .ok i ∧ i.WellFormed P := by
  obtain ⟨hr, hn, hwin⟩ := checkWord_eq_ok.mp h
  refine ⟨_, decode_of_cmdRsvd_zero hr, ?_⟩
  simp only [Instr.WellFormed, Instr.NbitsLegal, Instr.WindowLegal, instrOfOp_pin, instrOfOp_nbits]
  exact ⟨hn, hwin⟩

/-- RESULT is 0 where a check failed (R105). -/
theorem wordValue_of_checkWord_ne_ok {P : Params} {w : Cmd} (h : checkWord P w ≠ .ok) (m : Memory) : wordValue P w m = 0#32 :=
  if_neg fun hok => h hok.1

/-- A word that fails a check is answered by that check's status, and nothing else happens (R105). -/
theorem performWord_of_checkWord_ne_ok {s : State} {w : Cmd} (h : checkWord s.params w ≠ .ok) :
    performWord w s = .next (raiseStatus (checkWord s.params w) s) := by
  have harray : wordArray s.params w s.array = s.array := if_neg fun hok => h hok.1
  rw [performWord_eq, wordValue_of_checkWord_ne_ok h, harray, raiseStatus_eq]

/-- Settles O13: the status is `checkWord`'s, a word it passes decodes to a well-formed command, and RESULT is 0 for any other. -/
theorem checksInPriorityOrder : Obligations.ChecksInPriorityOrder := by
  intro s w
  refine ⟨_, _, performWord_eq w s, rfl, fun h => wordValue_of_checkWord_ne_ok h s.array, fun hok => ?_,
    statusCode_checkWord s.params w⟩
  obtain ⟨i, hi, hwf⟩ := decode_of_checkWord_ok hok
  exact ⟨i, hi, hwf, performWord_of_decode_ok hi s⟩

/-- No request can be raised for a command with no slot left to access (R29, R105). -/
theorem requestStep_of_pending_nil {s : State} {c : Progress} (hc : s.current = some c) (h : c.pending = []) (k : Nat) :
    requestStep k s = s := by
  cases hm : s.memReq <;> simp [requestStep, hc, hm, h]

/-- Settles O14: a non-OK answer is `raiseStatus` on the state before, and a command whose checks fail starts with no slot pending. -/
theorem faultedCommandTouchesNoSlot : Obligations.FaultedCommandTouchesNoSlot := by
  refine ⟨fun s t w r ht hresp hstatus => ?_, fun s w k h hc => requestStep_of_pending_nil hc (if_neg h) k⟩
  have hr : r.status = checkWord s.params w := by
    rw [performWord_eq] at ht
    cases ht
    cases hresp
    rfl
  rw [performWord_of_checkWord_ne_ok (hr ▸ hstatus)] at ht
  cases ht
  cases hresp
  exact ⟨rfl, rfl, sameElsewhere_respond _ _ s.array s⟩

/-- A non-OK status leaves the response and the record of the run, and ends what was in progress (R11, R108, R109). -/
theorem raiseStatus_of_ne_ok {st : Status} (h : st ≠ .ok) (s : State) :
    raiseStatus st s = { s with current := none, memReq := none, resp := some ⟨st, 0#32⟩, runFaulted := true } := by
  rw [raiseStatus_eq, respond, recordFault_of_ne h]

/-- Settles O16: the outcome of a word depends on the parameters and the array, which a fault leaves as they are, and the rest of the state
only passes through. -/
theorem faultLeavesNoStickyState : Obligations.FaultLeavesNoStickyState := by
  intro s w w' h
  refine ⟨_, _, _, performWord_of_checkWord_ne_ok h, raiseStatus_of_ne_ok h s, ?_, performWord_eq w' s, ?_,
    performWord_eq w' _, rfl, rfl⟩
  · simp [cmdReady, takeStep, raiseStatus_eq, busy, respValid]
  · rw [raiseStatus_of_ne_ok h, performWord_eq, respond, recordFault_true]
    rfl

end Sys2Proof.Machine
end

section
/-! SUPPORT. A command word and its command, both ways, the response word, and the assembler's words as sums (30_encoding.md R55, R67-R69). -/

namespace Sys2Proof.Machine

/-- A packed word decodes to the operation of its OP on its other fields (R55, R56). -/
theorem decode_packCmd (v : Value) (p : Pin) (n : Width) (op : BitVec 2) :
    decode (packCmd v p n op) = .ok (instrOfOp op v p n) := by
  obtain ⟨ho, hr, hn, hp, hv⟩ := Laws.EncodedFields.packCmd_fields v p n op
  rw [decode_of_cmdRsvd_zero hr, ho, hn, hp, hv]

/-- Settles O1: a command's word is packed from its operands and the OP that selects it. -/
theorem decodeOfEncodeGivesTheCommandBack : Obligations.DecodeOfEncodeGivesTheCommandBack := by
  intro i
  cases i with
  | encu v p n => exact decode_packCmd v p n 0b00#2
  | decu p n => exact decode_packCmd 0#32 p n 0b01#2
  | encs v p n => exact decode_packCmd v p n 0b10#2
  | decs p n => exact decode_packCmd 0#32 p n 0b11#2

/-- The packed word as a sum of its fields at their places (R55). -/
theorem toNat_packCmd (v : Value) (p : Pin) (n : Width) (op : BitVec 2) :
    (packCmd v p n op).toNat = v.toNat * 2 ^ 32 + p.toNat * 2 ^ 16 + n.toNat * 2 ^ 8 + op.toNat := by
  obtain ⟨ho, hr, hn, hp, hv⟩ := Laws.EncodedFields.packCmd_fields v p n op
  have h := commandWordIsTheSumOfItsFields (packCmd v p n op)
  rwa [ho, hr, hn, hp, hv, BitVec.toNat_zero, zero_mul, add_zero] at h

/-- A word whose RSVD is zero is packed from its fields (R55). -/
theorem packCmd_fields_self {w : Cmd} (h : cmdRsvd w = 0#6) : packCmd (cmdValue w) (cmdPin w) (cmdNbits w) (cmdOp w) = w := by
  have hsum := commandWordIsTheSumOfItsFields w
  rw [h, BitVec.toNat_zero, zero_mul, add_zero] at hsum
  exact BitVec.eq_of_toNat_eq ((toNat_packCmd ..).trans hsum.symm)

/-- A word whose RSVD is zero, packed again without its VALUE, is the word with VALUE cleared (R55, R68). -/
theorem packCmd_zero_value {w : Cmd} (h : cmdRsvd w = 0#6) :
    packCmd 0#32 (cmdPin w) (cmdNbits w) (cmdOp w) = w &&& 0x00000000FFFFFFFF#64 := by
  have hsum := commandWordIsTheSumOfItsFields w
  have hlow : (w &&& 0x00000000FFFFFFFF#64).toNat = w.toNat % 2 ^ 32 :=
    (BitVec.toNat_and w _).trans (Nat.and_two_pow_sub_one_eq_mod w.toNat 32)
  have hp : (cmdPin w).toNat < 65536 := (cmdPin w).isLt
  have hn : (cmdNbits w).toNat < 256 := (cmdNbits w).isLt
  have hop : (cmdOp w).toNat < 4 := (cmdOp w).isLt
  rw [h, BitVec.toNat_zero, zero_mul, add_zero] at hsum
  apply BitVec.eq_of_toNat_eq
  rw [toNat_packCmd, hlow, BitVec.toNat_zero]
  omega

/-- Encoding the operation that OP selects packs its operands, without VALUE for a decoder (R56, R68). -/
theorem encode_instrOfOp (op : BitVec 2) (v : Value) (p : Pin) (n : Width) :
    encode (instrOfOp op v p n) = packCmd (if op.getLsbD 0 then 0#32 else v) p n op := by
  have hop : ∀ op : BitVec 2, op = 0b00#2 ∨ op = 0b01#2 ∨ op = 0b10#2 ∨ op = 0b11#2 := by decide
  rcases hop op with rfl | rfl | rfl | rfl <;> rfl

/-- Settles O2: the word of the operation is packed from the fields of `w`, its VALUE only for an encoder. -/
theorem encodeOfDecodeGivesTheWordBack : Obligations.EncodeOfDecodeGivesTheWordBack := by
  intro w i h
  by_cases hr : cmdRsvd w = 0#6
  · rw [decode_of_cmdRsvd_zero hr] at h
    cases h
    rw [encode_instrOfOp, cmdEncodes]
    cases (cmdOp w).getLsbD 0 with
    | false => exact packCmd_fields_self hr
    | true => exact packCmd_zero_value hr
  · rw [decode_of_cmdRsvd_ne_zero hr] at h
    cases h

/-- Settles O6: each of the six words, decoded. -/
theorem testVectorWordsDecode : Obligations.TestVectorWordsDecode := by
  unfold Obligations.TestVectorWordsDecode
  decide

/-- Settles O7: RESULT fills the 32 bits below STATUS. -/
theorem responseWordLayout : Obligations.ResponseWordLayout := by
  refine ⟨fun r => ?_, rfl, rfl, rfl, rfl⟩
  rw [respWord, BitVec.toNat_append, ← Nat.shiftLeft_add_eq_or_of_lt r.result.isLt, Nat.shiftLeft_eq]

/-- Operands of a decoder in range assemble to the fields that hold them (R69). -/
theorem asmDecoder_of_range (mk : Pin → Width → Instr) {p n : Nat} (hp : p ≤ 65535) (hn : n ≤ 255) :
    asmDecoder mk p n = .ok (encode (mk (BitVec.ofNat 16 p) (BitVec.ofNat 8 n))) := by
  have hpin : asmPin p = .ok (BitVec.ofInt 16 p) := by rw [asmPin, if_neg (by omega), if_neg (by omega)]
  have hnbits : asmNbits n = .ok (BitVec.ofInt 8 n) := if_neg (by omega)
  rw [asmDecoder, hpin, hnbits, BitVec.ofInt_natCast, BitVec.ofInt_natCast]
  rfl

/-- The packed word of operands in range is their sum, VALUE modulo 2^32 (R55, R69). -/
theorem packCmd_eq_ofInt (v : Int) {p n : Nat} (op : BitVec 2) (hp : p ≤ 65535) (hn : n ≤ 255) :
    packCmd (BitVec.ofInt 32 v) (BitVec.ofNat 16 p) (BitVec.ofNat 8 n) op =
      BitVec.ofInt 64 (v % 2 ^ 32 * 2 ^ 32 + p * 2 ^ 16 + n * 2 ^ 8 + op.toNat) := by
  have hop : op.toNat < 4 := op.isLt
  apply BitVec.eq_of_toNat_eq
  rw [toNat_packCmd, BitVec.toNat_ofInt, BitVec.toNat_ofInt, BitVec.toNat_ofNat, BitVec.toNat_ofNat]
  omega

/-- Settles O59: in range the word is packed from the operands; else the first check that fails names its operand. -/
theorem assembledWordsByArithmetic : Obligations.AssembledWordsByArithmetic := by
  refine ⟨fun v p n hv0 hv hp0 hp hn0 hn => ?_, fun v p n hv => ?_, fun p n hp => ?_, fun p n hp => ?_, fun p n hp0 hp hn => ?_⟩
  · lift p to ℕ using hp0
    lift n to ℕ using hn0
    have hword := fun op => packCmd_eq_ofInt v (p := p) (n := n) op (by omega) (by omega)
    have hword0 := fun op => packCmd_eq_ofInt 0 (p := p) (n := n) op (by omega) (by omega)
    have henc := fun mk => asmEncoder_of_range mk (v := v) (p := p) (n := n) (by omega) (by omega) (by omega) (by omega)
    have hdec := fun mk => asmDecoder_of_range mk (p := p) (n := n) (by omega) (by omega)
    refine ⟨(henc .encu).trans (congrArg _ ((hword 0b00#2).trans ?_)), (henc .encs).trans (congrArg _ (hword 0b10#2)),
      (hdec .decu).trans (congrArg _ ((hword0 0b01#2).trans ?_)), (hdec .decs).trans (congrArg _ ((hword0 0b11#2).trans ?_))⟩ <;>
      simp
  · have : asmValue v = .error (.valueRange v) := if_pos hv
    rw [assemble, asmEncoder, this]
    rfl
  · have : asmPin p = .error (.negativePin p) := if_pos hp
    rw [assemble, asmDecoder, this]
    rfl
  · have : asmPin p = .error (.pinRange p) := by rw [asmPin, if_neg (by omega), if_pos hp]
    rw [assemble, asmDecoder, this]
    rfl
  · have hpin : asmPin p = .ok (BitVec.ofInt 16 p) := by rw [asmPin, if_neg (by omega), if_neg (by omega)]
    have : asmNbits n = .error (.nbitsRange n) := if_pos hn
    rw [assemble, asmDecoder, hpin, this]
    rfl

end Sys2Proof.Machine
end

section
/-! SUPPORT. What one event, and so one step, can do to the state, said once: every statement about all steps is a case analysis on it
(10_state.md R29-R34; 20_memory.md R50-R53; 70_reset_and_hazards.md R117-R129). -/

namespace Sys2Proof.Machine

/-- Everything that the event `e` can do to the state `s`. -/
inductive Change : Event → State → State → Prop
  /-- The caller's ports and the array's mem_ack level move, or nothing does; an earlier word stands only beside a presented one (R126). -/
  | ports {e : Event} {s : State} (v : Bool) (w : Cmd) (es : List Cmd) (a y : Bool)
      (hearlier : (s.cmdValid = false → s.cmdEarlier = []) → v = false → es = []) :
      Change e s { s with cmdValid := v, cmd := w, cmdEarlier := es, memAck := a, respReady := y }
  /-- A presented word is accepted and performed as one step (R31). -/
  | answered {s : State} (choice : Nat) (henabled : transferEnabled s = true) (hack : s.memAck = true) :
      Change (.transact choice) s
        (respond (checkWord s.params (chosenWord s choice)) (wordValue s.params (chosenWord s choice) s.array)
          { transferred s with array := wordArray s.params (chosenWord s choice) s.array })
  /-- A presented word is accepted and goes on access by access (R31, R32). -/
  | accepted {e : Event} {s : State} (choice : Nat) (henabled : transferEnabled s = true) :
      Change e s { transferred s with current := some (startProgress s.params (chosenWord s choice)) }
  /-- The request of a slot still owed (R29). -/
  | requested {s : State} {c : Progress} {k : Nat} (hcurrent : s.current = some c) (hreq : s.memReq = none) (hk : k ∈ c.pending) :
      Change (.request k) s { s with memReq := some (requestFor c.word k) }
  /-- The requested access, performed (R29). -/
  | acked {s : State} {c p : Progress} {m : Memory} (hcurrent : s.current = some c) (hreq : s.memReq ≠ none)
      (hstep : ackStep s = .next { s with array := m, current := some p, memReq := none }) :
      Change .ack s { s with array := m, current := some p, memReq := none }
  /-- The response of a command whose accesses are over (R31, R50). -/
  | finished {s : State} {c : Progress} (hcurrent : s.current = some c) (hreq : s.memReq = none) (hpending : c.pending = []) :
      Change .finish s (respond (checkWord s.params c.word) (wordResult s.params c) s)
  /-- The response transfer (R29). -/
  | taken {s : State} {r : Response} (hresp : s.resp = some r) : Change .take s { s with resp := none, taken := s.taken ++ [r] }
  /-- Another agent's write (R53). -/
  | otherWrite {s : State} {k : Nat} {b : Byte} (hk : k < s.params.arrayLen) :
      Change (.otherWrite k b) s { s with array := memWrite s.array k b }
  /-- Another agent's read (R53c). -/
  | otherRead {s : State} {k : Nat} (hk : k < s.params.arrayLen) :
      Change (.otherRead k) s { s with otherReads := s.otherReads ++ [(k, memRead s.array k)] }
  /-- A rising edge with rst = 1 (R117). -/
  | resetHigh {s : State} : Change .resetHigh s (resetStep s)
  /-- rst falls (R34). -/
  | resetLow {s : State} : Change .resetLow s { s with rst := false }

theorem Change.refl (e : Event) (s : State) : Change e s s :=
  .ports s.cmdValid s.cmd s.cmdEarlier s.memAck s.respReady id

theorem change_presentStep (e : Event) (w : Cmd) (s : State) : Change e s (presentStep w s) := by
  unfold presentStep
  split
  case isTrue h =>
    have hv : s.cmdValid = true := (Bool.and_eq_true_iff.mp h).1
    exact .ports s.cmdValid w (s.cmd :: s.cmdEarlier) s.memAck s.respReady fun _ hf => absurd (hv.symm.trans hf) (by decide)
  case isFalse => exact .ports true w s.cmdEarlier s.memAck s.respReady fun _ hf => by cases hf

theorem change_acceptStep (e : Event) (choice : Nat) (s : State) : Change e s (acceptStep choice s) := by
  unfold acceptStep
  split
  case isTrue h => exact .accepted choice h
  case isFalse => exact .refl e s

theorem change_requestStep (k : Nat) (s : State) : Change (.request k) s (requestStep k s) := by
  unfold requestStep
  split
  next c hc hr =>
    split
    case isTrue hk => exact .requested hc hr hk
    case isFalse => exact .refl _ s
  next => exact .refl _ s

theorem change_finishStep (s : State) : Change .finish s (finishStep s) := by
  unfold finishStep
  split
  next c hc hr =>
    split
    case isTrue hp => exact .finished hc hr hp
    case isFalse => exact .refl _ s
  next => exact .refl _ s

theorem change_takeStep (s : State) : Change .take s (takeStep s) := by
  unfold takeStep
  split
  next r hr => exact .taken hr
  next => exact .refl _ s

theorem change_of_ackStep {s t : State} (h : ackStep s = .next t) : Change .ack s t := by
  rcases ackStep_cases h with rfl | ⟨c, m, p, hc, rfl, hreq⟩
  · exact .refl _ _
  · refine .acked hc ?_ h
    rcases hreq with ⟨a, hr, _⟩ | ⟨a, d, hr, _⟩ <;> simp [hr]

theorem change_of_sampleStep {s t : State} (h : sampleStep s = .next t) : Change .sample s t := by
  unfold sampleStep at h
  split at h
  next =>
    cases h
    exact .refl _ s
  next => cases h

/-- Every event does one of the things that `Change` lists. -/
theorem change_of_runEvent {e : Event} {s t : State} (h : runEvent e s = .next t) : Change e s t := by
  cases e with
  | present w =>
    cases h
    exact change_presentStep _ w s
  | withdraw =>
    cases h
    exact .ports false s.cmd [] s.memAck s.respReady fun _ _ => rfl
  | transact choice =>
    rcases transactStep_cases h with ⟨he, ha, rfl⟩ | rfl
    · exact .answered choice he ha
    · exact change_acceptStep _ choice s
  | accept choice =>
    cases h
    exact change_acceptStep _ choice s
  | request k =>
    cases h
    exact change_requestStep k s
  | ack => exact change_of_ackStep h
  | finish =>
    cases h
    exact change_finishStep s
  | take =>
    cases h
    exact change_takeStep s
  | setAck level =>
    cases h
    exact .ports s.cmdValid s.cmd s.cmdEarlier level s.respReady id
  | setReady level =>
    cases h
    exact .ports s.cmdValid s.cmd s.cmdEarlier s.memAck level id
  | sample => exact change_of_sampleStep h
  | otherWrite k b =>
    obtain ⟨hk, rfl⟩ := otherWriteStep_cases h
    exact .otherWrite hk
  | otherRead k =>
    obtain ⟨hk, rfl⟩ := otherReadStep_cases h
    exact .otherRead hk
  | resetHigh =>
    cases h
    exact .resetHigh
  | resetLow =>
    cases h
    exact .resetLow

/-- The events that stand for the block's own moves at an edge with no event (log entry 6). -/
def IdleMove (s : State) (e : Event) : Prop :=
  (e = .ack ∧ s.memAck = true) ∨ (∃ k, e = .request k) ∨ e = .finish ∨ e = .take ∨ e = .transact 0

/-- The event that a step runs: the first of the schedule, or a move of the block's own when there is none. -/
def Moves (s : State) (e : Event) : Prop := (∃ rest, s.schedule = e :: rest) ∨ (s.schedule = [] ∧ IdleMove s e)

/-- The state whose first event, if it has one, is being run. -/
def State.popped (s : State) : State := { s with schedule := s.schedule.tail }

theorem popped_of_nil {s : State} (h : s.schedule = []) : s.popped = s := by
  have : s.schedule.tail = s.schedule := by rw [h, List.tail_nil]
  rw [State.popped, this]

/-- A step is the run of one event, or an edge at which nothing happens. -/
theorem step_eq_event (s : State) : step s = .next s ∧ s.schedule = [] ∨ ∃ e, step s = runEvent e s.popped ∧ Moves s e := by
  cases hs : s.schedule with
  | nil =>
    rw [step_of_nil hs, popped_of_nil hs]
    rcases idleStep_eq_event s with h | ⟨e, h, _, hmove⟩
    · exact .inl ⟨h, rfl⟩
    · refine .inr ⟨e, h, .inr ⟨hs, ?_⟩⟩
      rcases hmove with ⟨he, ha, _⟩ | ⟨k, he, _⟩ | ⟨he, _⟩ | ⟨he, _⟩ | ⟨he, _⟩
      · exact .inl ⟨he, ha⟩
      · exact .inr (.inl ⟨k, he⟩)
      · exact .inr (.inr (.inl he))
      · exact .inr (.inr (.inr (.inl he)))
      · exact .inr (.inr (.inr (.inr he)))
  | cons e rest =>
    refine .inr ⟨e, ?_, .inl ⟨rest, hs⟩⟩
    simp [step, State.popped, hs]

/-- Every step does one of the things that `Change` lists. -/
theorem change_of_step {s t : State} (h : step s = .next t) : ∃ e, Change e s.popped t ∧ Moves s e := by
  rcases step_eq_event s with ⟨hself, hs⟩ | ⟨e, hrun, hmoves⟩
  · cases hself.symm.trans h
    refine ⟨.take, ?_, .inr ⟨hs, .inr (.inr (.inr (.inl rfl)))⟩⟩
    rw [popped_of_nil hs]
    exact .refl _ s
  · exact ⟨e, change_of_runEvent (hrun.symm.trans h), hmoves⟩

/-- Settles O35: no change writes the parameters. -/
theorem configurationNeverChanges : Obligations.ConfigurationNeverChanges := by
  intro s t h
  obtain ⟨e, hchange, _⟩ := change_of_step h
  cases hchange <;> rfl

end Sys2Proof.Machine
end

section
/-! SUPPORT. The invariant of the machine: each change that `Change` lists keeps it, and so every step does. -/

namespace Sys2Proof.Machine

/-- The invariant does not look at the schedule. -/
theorem State.Inv.popped {s : State} (h : s.Inv) : s.popped.Inv := { h with }

/-- The weights of the first `n` slots sum to the largest number of U(n) (R91, R92). -/
theorem sum_slotWeight_window (p n : Nat) : ((window p n).map (slotWeight p n)).sum ≤ 2 ^ n - 1 := by
  have hsum : ((window p n).map (slotWeight p n)).sum = windowValue p n fun _ => slotOn := by
    rw [window, List.range'_eq_map_range, List.map_map]
    simp only [windowValue, Function.comp_def, slotWeight_add]
    rfl
  rw [hsum]
  exact Nat.le_sub_one_of_lt (windowValue_lt p n _)

/-- A word that passes its checks has the slots of its window to access (R47). -/
theorem windowOf_of_ok {P : Params} {w : Cmd} (h : checkWord P w = .ok) :
    windowOf P w = window (cmdPin w).toNat (cmdNbits w).toNat := if_pos h

/-- A word that fails a check has none (R105). -/
theorem windowOf_of_ne_ok {P : Params} {w : Cmd} (h : checkWord P w ≠ .ok) : windowOf P w = [] := if_neg h

theorem startProgress_inv (P : Params) (w : Cmd) : (startProgress P w).Inv P := by
  by_cases hok : checkWord P w = .ok
  · have hp : (startProgress P w).pending = window (cmdPin w).toNat (cmdNbits w).toNat := windowOf_of_ok hok
    refine ⟨fun k hk => hp ▸ hk, hp ▸ window_nodup _ _, fun h => absurd hok h, ?_⟩
    rw [hp]
    exact (Nat.zero_add _).trans_le (sum_slotWeight_window _ _)
  · have hp : (startProgress P w).pending = [] := windowOf_of_ne_ok hok
    refine ⟨fun k hk => by simp [hp] at hk, by simp [hp], fun _ => hp, ?_⟩
    rw [hp]
    exact Nat.zero_le _

/-- An access adds at most the weight that the slot was still due. -/
theorem accessed_inv {P : Params} {c : Progress} (h : c.Inv P) {k : Nat} (hk : k ∈ c.pending) (b : Byte) :
    (accessed c k b).Inv P where
  inWindow := fun j hj => h.inWindow j (List.mem_of_mem_erase hj)
  once := h.once.erase k
  checked := fun hc => by rw [h.checked hc] at hk; cases hk
  bounded := by
    have hsum := List.sum_map_erase (slotWeight (cmdPin c.word).toNat (cmdNbits c.word).toNat) hk
    have hle := h.bounded
    simp only [accessed]
    split <;> omega

/-- A command that owes a slot has passed its checks. -/
theorem checkWord_of_mem_pending {P : Params} {c : Progress} (h : c.Inv P) {k : Nat} (hk : k ∈ c.pending) :
    checkWord P c.word = .ok := by
  by_contra hc
  rw [h.checked hc] at hk
  cases hk

/-- Every slot that a command owes is in the array (R49, R105). -/
theorem lt_arrayLen_of_mem_pending {P : Params} {c : Progress} (h : c.Inv P) {k : Nat} (hk : k ∈ c.pending) : k < P.arrayLen := by
  obtain ⟨_, _, hwin⟩ := checkWord_eq_ok.mp (checkWord_of_mem_pending h hk)
  have := mem_window.mp (h.inWindow k hk)
  omega

/-- The acknowledgement of a request that is up: the access of a slot that the command in progress owes (R29). -/
theorem ackStep_of_memReq {s : State} (hinv : s.Inv) (hreq : s.memReq ≠ none) :
    ∃ c k, s.current = some c ∧ k ∈ c.pending ∧ s.memReq = some (requestFor c.word k) ∧ k < s.params.arrayLen ∧
      ackStep s = .next { s with
        array := accessArray c.word s.array k
        current := some (accessed c k (accessByte c.word s.array k))
        memReq := none } := by
  obtain ⟨r, hr⟩ := Option.ne_none_iff_exists'.mp hreq
  obtain ⟨c, hc, k, hk, rfl⟩ := hinv.request r hr
  have hlt := lt_arrayLen_of_mem_pending (hinv.progress c hc) hk
  exact ⟨c, k, hc, hk, hr, hlt, ackStep_request hinv.admissible hc hlt hr⟩

/-- Nothing is requested unless a command is in progress. -/
theorem State.Inv.memReq_of_current {s : State} (h : s.Inv) (hc : s.current = none) : s.memReq = none := by
  by_contra hreq
  obtain ⟨c, _, hsome, _⟩ := ackStep_of_memReq h hreq
  simp [hc] at hsome

theorem State.Inv.resp_of_current {s : State} (h : s.Inv) {c : Progress} (hc : s.current = some c) : s.resp = none :=
  h.exclusive.resolve_left (by simp [hc])

theorem State.Inv.rst_of_current {s : State} (h : s.Inv) {c : Progress} (hc : s.current = some c) : s.rst = false := by
  by_contra hrst
  obtain ⟨hnone, _⟩ := h.inReset (by simpa using hrst)
  simp [hc] at hnone

/-- The array's part of the invariant: canonical, and within ARRAY_LEN (R27, R38). -/
def ArrayInv (P : Params) (m : Memory) : Prop := Memory.wf m ∧ ∀ c ∈ m, c.1 < P.arrayLen

theorem State.Inv.arrayInv {s : State} (h : s.Inv) : ArrayInv s.params s.array := ⟨h.canonical, h.inArray⟩

theorem arrayInv_memWrite {P : Params} {m : Memory} (h : ArrayInv P m) {k : Nat} (hk : k < P.arrayLen) (b : Byte) :
    ArrayInv P (memWrite m k b) :=
  ⟨memWrite_wf h.1 k b, fun c hc => (mem_memWrite hc).elim (fun e => e ▸ hk) (h.2 c)⟩

theorem arrayInv_accessArray {P : Params} {m : Memory} (h : ArrayInv P m) {k : Nat} (hk : k < P.arrayLen) (w : Cmd) :
    ArrayInv P (accessArray w m k) := by
  unfold accessArray
  split
  · exact arrayInv_memWrite h hk _
  · exact h

theorem arrayInv_wordArray {P : Params} {m : Memory} (h : ArrayInv P m) (w : Cmd) : ArrayInv P (wordArray P w m) := by
  unfold wordArray
  split
  next hok =>
    obtain ⟨_, _, hwin⟩ := checkWord_eq_ok.mp hok.1
    exact ⟨encodedArray_wf _ h.1, fun c hc => (mem_encodedArray le_rfl hc).elim (h.2 c) fun hc => by omega⟩
  next => exact h

theorem State.Inv.withArray {s : State} (h : s.Inv) {m : Memory} (hm : ArrayInv s.params m) : { s with array := m }.Inv :=
  { h with canonical := hm.1, inArray := hm.2 }

/-- Presenting, changing and withdrawing words and moving the two levels keep the invariant (R126). -/
theorem State.Inv.withPorts {s : State} (h : s.Inv) {v : Bool} {es : List Cmd} (hes : v = false → es = []) (w : Cmd) (a y : Bool) :
    { s with cmdValid := v, cmd := w, cmdEarlier := es, memAck := a, respReady := y }.Inv :=
  { h with earlier := hes }

theorem State.Inv.transferred {s : State} (h : s.Inv) : (transferred s).Inv :=
  h.withPorts (fun _ => rfl) s.cmd s.memAck s.respReady

/-- A command in progress replaces none, or one whose requested access has just been performed. -/
theorem State.Inv.withCurrent {s : State} (h : s.Inv) (hresp : s.resp = none) (hrst : s.rst = false) {c : Progress} (hc : c.Inv s.params) :
    { s with current := some c, memReq := none }.Inv :=
  { h with
    exclusive := .inr hresp
    inReset := fun hr => absurd (hrst.symm.trans hr) (by decide)
    progress := fun d hd => by cases hd; exact hc
    request := fun r hr => by cases hr }

/-- A response keeps the invariant if RESULT is 0 with every status that is not OK (R105). -/
theorem State.Inv.respond {s : State} (h : s.Inv) (hrst : s.rst = false) {st : Status} {v : Value} (hv : st ≠ .ok → v = 0#32) :
    (respond st v s).Inv :=
  { h with
    exclusive := .inl rfl
    inReset := fun hr => absurd (hrst.symm.trans hr) (by decide)
    progress := fun d hd => by cases hd
    request := fun r hr => by cases hr
    held := fun r hr => by cases hr; exact hv
    recorded := fun r hr hne => by
      rcases hr with hr | hr
      · cases hr
        exact recordFault_of_ne hne _
      · have hrec : s.runFaulted = true := h.recorded r (.inr hr) hne
        rw [respond_runFaulted, hrec, recordFault_true] }

/-- RESULT is 0 for a command that failed a check, access by access too (R105). -/
theorem wordResult_of_checkWord_ne_ok {P : Params} {c : Progress} (h : checkWord P c.word ≠ .ok) : wordResult P c = 0#32 :=
  if_neg fun hok => h hok.1

theorem State.Inv.take {s : State} (h : s.Inv) {r : Response} (hr : s.resp = some r) :
    { s with resp := none, taken := s.taken ++ [r] }.Inv :=
  { h with
    exclusive := .inr rfl
    inReset := fun hrst => ⟨(h.inReset hrst).1, rfl, (h.inReset hrst).2.2⟩
    held := fun q hq => by cases hq
    taken := fun q hq => by
      rcases List.mem_append.mp hq with hq | hq
      · exact h.taken q hq
      · exact List.mem_singleton.mp hq ▸ h.held r hr
    recorded := fun q hq => by
      rcases hq with hq | hq
      · cases hq
      · rcases List.mem_append.mp hq with hq | hq
        · exact h.recorded q (.inr hq)
        · exact h.recorded q (.inl (List.mem_singleton.mp hq ▸ hr)) }

theorem State.Inv.reset {s : State} (h : s.Inv) : (resetStep s).Inv :=
  { h with
    exclusive := .inl rfl
    inReset := fun _ => ⟨rfl, rfl, rfl⟩
    progress := fun c hc => by cases hc
    request := fun r hr => by cases hr
    held := fun r hr => by cases hr
    recorded := fun r hr => h.recorded r (.inr (hr.resolve_left (by simp))) }

/-- Raising the request of a slot that is owed keeps the invariant (R29). -/
theorem State.Inv.withRequest {s : State} (h : s.Inv) {c : Progress} (hc : s.current = some c) {k : Nat} (hk : k ∈ c.pending) :
    { s with memReq := some (requestFor c.word k) }.Inv :=
  { h with
    inReset := fun hr => absurd ((h.rst_of_current hc).symm.trans hr) (by decide)
    request := fun r hr => by cases hr; exact ⟨c, hc, k, hk, rfl⟩ }

/-- Every change keeps the invariant. -/
theorem Change.keeps_inv {e : Event} {s t : State} (hchange : Change e s t) (h : s.Inv) : t.Inv := by
  cases hchange with
  | ports v w es a y hearlier => exact h.withPorts (hearlier h.earlier) w a y
  | answered choice henabled hack =>
    obtain ⟨_, _, _, hrst⟩ := transferEnabled_iff.mp henabled
    exact (h.transferred.withArray (arrayInv_wordArray h.arrayInv _)).respond hrst fun hne => wordValue_of_checkWord_ne_ok hne _
  | accepted choice henabled =>
    obtain ⟨_, hc, hresp, hrst⟩ := transferEnabled_iff.mp henabled
    have hreq := h.memReq_of_current hc
    have := h.transferred.withCurrent hresp hrst (startProgress_inv s.params (chosenWord s choice))
    rwa [← hreq] at this
  | requested hc hreq hk => exact h.withRequest hc hk
  | acked hcur hreq hstep =>
    obtain ⟨c, k, hc, hk, _, hlt, hack⟩ := ackStep_of_memReq h hreq
    cases hstep.symm.trans hack
    exact (h.withArray (arrayInv_accessArray h.arrayInv hlt c.word)).withCurrent (h.resp_of_current hc) (h.rst_of_current hc)
      (accessed_inv (h.progress c hc) hk _)
  | finished hc hreq hp => exact h.respond (h.rst_of_current hc) wordResult_of_checkWord_ne_ok
  | taken hr => exact h.take hr
  | otherWrite hk => exact h.withArray (arrayInv_memWrite h.arrayInv hk _)
  | otherRead hk => exact { h with }
  | resetHigh => exact h.reset
  | resetLow => exact { h with inReset := fun hr => by cases hr }

/-- Settles O38: a step is a change, and every change keeps the invariant. -/
theorem stepKeepsTheInvariant : Obligations.StepKeepsTheInvariant := by
  intro s t h hstep
  obtain ⟨e, hchange, _⟩ := change_of_step hstep
  exact hchange.keeps_inv h.popped

/-- Settles O37: right after reset the array lists nothing and the block does nothing. -/
theorem resetMeetsTheInvariant : Obligations.ResetMeetsTheInvariant where
  admissible := by decide
  canonical := by decide
  inArray := fun c hc => by cases hc
  exclusive := .inl rfl
  inReset := fun h => by cases h
  earlier := fun _ => rfl
  progress := fun c hc => by cases hc
  request := fun r hr => by cases hr
  held := fun r hr => by cases hr
  taken := fun r hr => by cases hr
  recorded := fun r hr => by rcases hr with hr | hr <;> cases hr

end Sys2Proof.Machine
end

section
/-! SUPPORT. What every step does to the responses, the record of the run, the array and the slot port (10_state.md R29; 20_memory.md R45-R49;
60_exceptions.md R101, R109; 70_reset_and_hazards.md R125, R129). -/

namespace Sys2Proof.Machine

/-- Settles O15: the answer is `performWord_eq`'s, whose RESULT and array depart from 0 and the old array only where the word's direction
and status allow it. -/
theorem everyCommandWordIsAnswered : Obligations.EveryCommandWordIsAnswered := by
  intro s w
  refine ⟨_, _, performWord_eq w s, rfl, rfl, rfl, sameElsewhere_respond .., fun h => if_neg ?_, fun h => if_neg ?_⟩
  · rintro ⟨hok, hdec⟩
    rcases h with h | h
    · exact h hok
    · exact absurd (h.symm.trans hdec) (by decide)
  · rintro ⟨hok, henc⟩
    rcases h with h | h
    · exact h hok
    · exact absurd (h.symm.trans henc) (by decide)

/-- A change either produces a response and records its status, or produces none and leaves the record alone (R109). -/
theorem Change.record {e : Event} {s t : State} (h : Change e s t) :
    (∃ r, t.resp = some r ∧ t.runFaulted = recordFault r.status s.runFaulted) ∨
      ((t.resp = s.resp ∨ t.resp = none) ∧ t.runFaulted = s.runFaulted) := by
  cases h with
  | answered choice henabled hack => exact .inl ⟨_, rfl, rfl⟩
  | finished hc hreq hp => exact .inl ⟨_, rfl, rfl⟩
  | taken hr => exact .inr ⟨.inr rfl, rfl⟩
  | resetHigh => exact .inr ⟨.inr rfl, rfl⟩
  | _ => exact .inr ⟨.inl rfl, rfl⟩

/-- `Change.record` for a step. -/
theorem step_record {s t : State} (h : step s = .next t) :
    (∃ r, t.resp = some r ∧ t.runFaulted = recordFault r.status s.runFaulted) ∨
      ((t.resp = s.resp ∨ t.resp = none) ∧ t.runFaulted = s.runFaulted) := by
  obtain ⟨e, hchange, _⟩ := change_of_step h
  exact hchange.record

/-- Settles O17: the record moves only with a response that the step produces, by that response's status. -/
theorem nonOkStatusIsAFaultOfTheRun : Obligations.NonOkStatusIsAFaultOfTheRun := by
  refine ⟨fun s t w hne h => ?_, fun s t r hs h hr hne => ?_, fun s t hs h => ?_, fun s t hs h ht => ?_⟩
  · rw [performWord_of_checkWord_ne_ok hne] at h
    cases h
    exact recordFault_of_ne hne _
  · rcases step_record h with ⟨q, hq, hrec⟩ | ⟨hresp, _⟩
    · cases hq.symm.trans hr
      rw [hrec, recordFault_of_ne hne]
    · simp [hs, hr] at hresp
  · rcases step_record h with ⟨q, _, hrec⟩ | ⟨_, hrec⟩
    · rw [hrec, hs, recordFault_true]
    · rw [hrec, hs]
  · rcases step_record h with ⟨q, hq, hrec⟩ | ⟨_, hrec⟩
    · refine ⟨q, hq, fun hok => ?_⟩
      rw [hrec, hok, recordFault_ok, hs] at ht
      cases ht
    · rw [hrec, hs] at ht
      cases ht

/-- A transfer answers a next state, whatever the word. -/
theorem exists_transactStep (choice : Nat) (s : State) : ∃ t, transactStep choice s = .next t := by
  unfold transactStep
  split
  · exact ⟨_, performWord_eq ..⟩
  · exact ⟨_, rfl⟩

/-- An acknowledgement answers a next state: the block requests no slot outside the array (R49). -/
theorem exists_ackStep {s : State} (h : s.Inv) : ∃ t, ackStep s = .next t := by
  by_cases hreq : s.memReq = none
  · cases hc : s.current <;> simp [ackStep, hc, hreq]
  · obtain ⟨_, _, _, _, _, _, hack⟩ := ackStep_of_memReq h hreq
    exact ⟨_, hack⟩

/-- Another agent's write inside the array (R53). -/
theorem otherWriteStep_of_lt {s : State} {k : Nat} (hk : k < s.params.arrayLen) (b : Byte) :
    otherWriteStep k b s = .next { s with array := memWrite s.array k b } := by
  simp [otherWriteStep, slotWrite_of_lt hk]

/-- Another agent's read inside the array (R53c). -/
theorem otherReadStep_of_lt {s : State} {k : Nat} (hk : k < s.params.arrayLen) :
    otherReadStep k s = .next { s with otherReads := s.otherReads ++ [(k, memRead s.array k)] } := by
  simp [otherReadStep, slotRead_of_lt hk]

/-- The events that can fail, and how: another agent's access past the array, and reading an empty response port (log entries 3, 16). -/
theorem runEvent_outcome {s : State} (h : s.Inv) (e : Event) :
    (∃ t, runEvent e s = .next t) ∨
    (∃ k, runEvent e s = .fault (.slotOutOfRange k) ∧ s.params.arrayLen ≤ k ∧ ((∃ b, e = .otherWrite k b) ∨ e = .otherRead k)) ∨
    (runEvent e s = .refused .respNotValid ∧ s.resp = none ∧ e = .sample) := by
  cases e with
  | transact choice => exact .inl (exists_transactStep choice s)
  | ack => exact .inl (exists_ackStep h)
  | otherWrite k b =>
    by_cases hk : k < s.params.arrayLen
    · exact .inl ⟨_, otherWriteStep_of_lt hk b⟩
    · exact .inr (.inl ⟨k, by simp [runEvent, otherWriteStep, slotWrite, hk], not_lt.mp hk, .inl ⟨b, rfl⟩⟩)
  | otherRead k =>
    by_cases hk : k < s.params.arrayLen
    · exact .inl ⟨_, otherReadStep_of_lt hk⟩
    · exact .inr (.inl ⟨k, by simp [runEvent, otherReadStep, slotRead, hk], not_lt.mp hk, .inr rfl⟩)
  | sample =>
    cases hr : s.resp with
    | some r => exact .inl ⟨s, by simp [runEvent, sampleStep, hr]⟩
    | none => exact .inr (.inr ⟨by simp [runEvent, sampleStep, hr], rfl, rfl⟩)
  | _ => exact .inl ⟨_, rfl⟩

/-- An event that is no move of the block's own comes from the schedule. -/
theorem Moves.scheduled {s : State} {e : Event} (h : Moves s e) (hidle : ¬ IdleMove s e) : ∃ rest, s.schedule = e :: rest :=
  h.resolve_right fun hi => hidle hi.2

/-- Settles O39: a step that fails runs one of the events that can, and none of them is a move of the block's own. -/
theorem onlyOtherAgentsLeaveTheArray : Obligations.OnlyOtherAgentsLeaveTheArray := by
  intro s hinv
  rcases step_eq_event s with ⟨hself, _⟩ | ⟨e, hrun, hmoves⟩
  · exact ⟨fun f h => (by cases hself.symm.trans h), fun r h => (by cases hself.symm.trans h)⟩
  rw [hrun]
  rcases runEvent_outcome hinv.popped e with ⟨t, ht⟩ | ⟨k, hf, hk, he⟩ | ⟨href, hresp, rfl⟩
  · exact ⟨fun f h => (by cases ht.symm.trans h), fun r h => (by cases ht.symm.trans h)⟩
  · refine ⟨fun f h => ?_, fun r h => (by cases hf.symm.trans h)⟩
    cases hf.symm.trans h
    rcases he with ⟨b, rfl⟩ | rfl
    · obtain ⟨rest, hs⟩ := hmoves.scheduled (by simp [IdleMove])
      exact ⟨k, rest, rfl, hk, .inl ⟨b, hs⟩⟩
    · obtain ⟨rest, hs⟩ := hmoves.scheduled (by simp [IdleMove])
      exact ⟨k, rest, rfl, hk, .inr hs⟩
  · refine ⟨fun f h => (by cases href.symm.trans h), fun r h => ?_⟩
    cases href.symm.trans h
    exact ⟨rfl, hresp, hmoves.scheduled (by simp [IdleMove])⟩

/-- What a slot reads after a word done as one step: an encoder's byte in its window, the old value elsewhere (R82, R88, R96). -/
theorem memRead_wordArray (P : Params) (w : Cmd) (m : Memory) (k : Nat) :
    memRead (wordArray P w m) k = if cmdEncodes w = true ∧ k ∈ windowOf P w then encodedSlot w k else memRead m k := by
  by_cases hok : checkWord P w = .ok
  · cases he : cmdEncodes w
    · simp [wordArray, he]
    · by_cases hk : k ∈ window (cmdPin w).toNat (cmdNbits w).toNat
      · simp [memRead_wordArray_window m hok he hk, windowOf_of_ok hok, mem_window.mp hk]
      · rw [windowOf_of_ok hok, if_neg fun h => hk h.2, wordArray, if_pos ⟨hok, he⟩, memRead_encodedArray _ _ le_rfl]
        rw [mem_window] at hk
        exact if_neg (by omega)
  · simp [wordArray, hok, windowOf_of_ne_ok hok]

/-- What a slot reads after one access: an encoder's byte in the slot accessed, the old value elsewhere. -/
theorem memRead_accessArray (w : Cmd) (m : Memory) (k j : Nat) :
    memRead (accessArray w m k) j = if cmdEncodes w = true ∧ j = k then encodedSlot w k else memRead m j := by
  cases he : cmdEncodes w <;> simp [accessArray, he, memRead_memWrite]

/-- The words on the port are not the schedule's. -/
theorem chosenWord_popped (s : State) (choice : Nat) : chosenWord s.popped choice = chosenWord s choice := by
  cases choice <;> rfl

/-- Settles O40: the changes that touch the array are another agent's write, a performed access, and a word done as one step. -/
theorem arrayChangesOnlyByWrites : Obligations.ArrayChangesOnlyByWrites := by
  intro s t k hinv hstep hne
  obtain ⟨e, hchange, hmoves⟩ := change_of_step hstep
  cases hchange with
  | otherWrite hk =>
    next j b =>
    obtain ⟨rest, hs⟩ := hmoves.scheduled (by simp [IdleMove])
    simp only [memRead_memWrite] at hne ⊢
    split at hne
    next hj => exact .inl ⟨rest, by rw [hs, hj, if_pos rfl]⟩
    next => exact absurd rfl hne
  | acked hcur hreq hack =>
    obtain ⟨c, j, hc, hj, hr, _, hack'⟩ := ackStep_of_memReq hinv.popped hreq
    cases hack.symm.trans hack'
    simp only [memRead_accessArray] at hne ⊢
    split at hne
    next h =>
      obtain ⟨he, rfl⟩ := h
      refine .inr (.inl ⟨?_, c, hc, he, hj, hr, if_pos ⟨he, rfl⟩⟩)
      simpa [Moves, IdleMove] using hmoves
    next => exact absurd rfl hne
  | answered choice henabled hack =>
    simp only [respond_array, memRead_wordArray, chosenWord_popped] at hne ⊢
    split at hne
    next h =>
      refine .inr (.inr ⟨choice, ?_, hack, henabled, h.1, h.2, if_pos h⟩)
      simpa [Moves, IdleMove] using hmoves
    next => exact absurd rfl hne
  | _ => exact absurd rfl hne

/-- While a command is in progress or a response is held no word is transferred (R30, R125). -/
theorem transferEnabled_of_occupied {s : State} (h : s.current ≠ none ∨ s.resp ≠ none) : transferEnabled s = false := by
  rw [Bool.eq_false_iff, ne_eq, transferEnabled_iff]
  rintro ⟨_, hc, hr, _⟩
  exact h.elim (· hc) (· hr)

theorem acceptStep_of_not_enabled {choice : Nat} {s : State} (h : transferEnabled s = false) : acceptStep choice s = s := by
  simp [acceptStep, h]

/-- When the block is ready (R30). -/
theorem cmdReady_iff {s : State} : cmdReady s = true ↔ s.current = none ∧ s.resp = none ∧ s.rst = false := by
  simp [cmdReady, busy, respValid, and_assoc]

/-- A response that is held stays, and no command starts, until it is taken or the block is reset (R125). -/
theorem Change.keeps_held {e : Event} {s t : State} (h : Change e s t) {r : Response} (hr : s.resp = some r) (hc : s.current = none)
    (htake : e ≠ .take) (hreset : e ≠ .resetHigh) : t.resp = some r ∧ t.current = none := by
  have hoccupied : transferEnabled s = false := transferEnabled_of_occupied (.inr (by simp [hr]))
  cases h with
  | answered choice henabled hack => exact absurd (hoccupied.symm.trans henabled) (by decide)
  | accepted choice henabled => exact absurd (hoccupied.symm.trans henabled) (by decide)
  | acked hcur hreq hstep => cases hc.symm.trans hcur
  | finished hcur hreq hp => cases hc.symm.trans hcur
  | taken hr => exact absurd rfl htake
  | resetHigh => exact absurd rfl hreset
  | _ => exact ⟨hr, hc⟩

/-- Settles O43: an occupied block transfers no word, and the changes that are left do not end the wait. -/
theorem backpressureHoldsTheCommand : Obligations.BackpressureHoldsTheCommand := by
  intro s h
  have hoccupied := fun rest => transferEnabled_of_occupied (s := { s with schedule := rest }) h
  refine ⟨?_, fun choice rest => ⟨?_, ?_⟩, fun e rest t r hr hc htake hreset hstep => ?_⟩
  · rw [Bool.eq_false_iff, ne_eq, cmdReady_iff]
    exact fun hready => h.elim (· hready.1) (· hready.2.1)
  · exact transactStep_of_not_enabled (hoccupied rest)
  · exact congrArg _ (acceptStep_of_not_enabled (hoccupied rest))
  · exact (change_of_runEvent hstep).keeps_held hr hc htake hreset

/-- A request that is up stays until it is acknowledged or the block is reset (R29). -/
theorem Change.keeps_memReq {e : Event} {s t : State} (h : Change e s t) (hinv : s.Inv) {r : MemRequest} (hr : s.memReq = some r)
    (hack : e ≠ .ack) (hreset : e ≠ .resetHigh) : t.memReq = some r := by
  cases h with
  | answered choice henabled _ =>
    obtain ⟨_, hc, _⟩ := transferEnabled_iff.mp henabled
    cases (hinv.memReq_of_current hc).symm.trans hr
  | requested hc hreq hk => cases hreq.symm.trans hr
  | finished hc hreq hp => cases hreq.symm.trans hr
  | acked hcur hreq hstep => exact absurd rfl hack
  | resetHigh => exact absurd rfl hreset
  | _ => exact hr

/-- Settles O47: no change but the two excepted ones ends a request. -/
theorem slotRequestStaysStable : Obligations.SlotRequestStaysStable := by
  intro s t r e rest hinv hr hs hack hreset hstep
  obtain ⟨e', hchange, hmoves⟩ := change_of_step hstep
  have he : e' = e := by simpa [Moves, hs, eq_comm] using hmoves
  exact hchange.keeps_memReq hinv.popped hr (he ▸ hack) (he ▸ hreset)

/-- A response appears only by the transfer of a word to an array that acknowledges, or at the end of a command whose accesses are all
performed and acknowledged (R31, R129). -/
theorem Change.resp_eq_none {e : Event} {s t : State} (h : Change e s t) (hresp : s.resp = none)
    (htransfer : transferEnabled s = true → s.memAck = false)
    (hfinish : ∀ c, s.current = some c → c.pending ≠ [] ∨ s.memReq ≠ none) : t.resp = none := by
  cases h with
  | answered choice henabled hack => exact absurd (hack.symm.trans (htransfer henabled)) (by decide)
  | finished hc hreq hp => exact ((hfinish _ hc).elim (· hp) (· hreq)).elim
  | taken hr => rfl
  | resetHigh => rfl
  | _ => exact hresp

/-- Settles O48: a command in progress bars the transfer and its accesses bar the end; with none in progress mem_ack = 0 bars the first. -/
theorem noResponseBeforeEveryAccess : Obligations.NoResponseBeforeEveryAccess := by
  refine ⟨fun s t c hc hresp howed h => ?_, fun s t hc hresp hack h => ?_⟩
  · obtain ⟨e, hchange, _⟩ := change_of_step h
    refine hchange.resp_eq_none hresp (fun henabled => ?_) fun d hd => ?_
    · have hoccupied : transferEnabled s.popped = false := transferEnabled_of_occupied (.inl (by simp [State.popped, hc]))
      exact absurd (hoccupied.symm.trans henabled) (by decide)
    · cases hc.symm.trans hd
      exact howed
  · obtain ⟨e, hchange, _⟩ := change_of_step h
    exact hchange.resp_eq_none hresp (fun _ => hack) fun c hsome => by cases hc.symm.trans hsome

end Sys2Proof.Machine
end

section
/-! SUPPORT. The transfers of the ports, by their events and at an edge with no event (10_state.md R29-R35; 70_reset_and_hazards.md R117-R126). -/

namespace Sys2Proof.Machine

/-! ### The response ports -/

theorem takeStep_of_some {s : State} {r : Response} (h : s.resp = some r) :
    takeStep s = { s with resp := none, taken := s.taken ++ [r] } := by simp [takeStep, h]

theorem takeStep_of_none {s : State} (h : s.resp = none) : takeStep s = s := by simp [takeStep, h]

theorem sampleStep_of_some {s : State} {r : Response} (h : s.resp = some r) : sampleStep s = .next s := by simp [sampleStep, h]

theorem sampleStep_of_none {s : State} (h : s.resp = none) : sampleStep s = .refused .respNotValid := by simp [sampleStep, h]

/-! ### An edge with no event, case by case (log entry 6) -/

theorem idleStep_of_rst {s : State} (h : s.rst = true) : idleStep s = .next s := by simp [idleStep, h]

theorem idleStep_of_current {s : State} {c : Progress} (hrst : s.rst = false) (hc : s.current = some c) :
    idleStep s = progressStep c s := by simp [idleStep, hrst, hc]

theorem idleStep_of_held {s : State} {r : Response} (hrst : s.rst = false) (hc : s.current = none) (hr : s.resp = some r) :
    idleStep s = .next (if s.respReady then { s with resp := none, taken := s.taken ++ [r] } else s) := by
  simp [idleStep, hrst, hc, hr, takeStep_of_some hr]

theorem idleStep_of_free {s : State} (hrst : s.rst = false) (hc : s.current = none) (hr : s.resp = none) :
    idleStep s = transactStep 0 s := by simp [idleStep, hrst, hc, hr]

theorem progressStep_of_memReq {s : State} (c : Progress) (h : s.memReq ≠ none) :
    progressStep c s = if s.memAck then ackStep s else .next s := by
  obtain ⟨r, hr⟩ := Option.ne_none_iff_exists'.mp h
  simp [progressStep, hr]

theorem progressStep_of_pending {s : State} {c : Progress} {k : Nat} {ks : List Nat} (hc : s.current = some c) (hreq : s.memReq = none)
    (hp : c.pending = k :: ks) : progressStep c s = .next { s with memReq := some (requestFor c.word k) } := by
  simp [progressStep, requestStep, hc, hreq, hp]

theorem finishStep_of_pending_nil {s : State} {c : Progress} (hc : s.current = some c) (hreq : s.memReq = none)
    (hp : c.pending = []) : finishStep s = respond (checkWord s.params c.word) (wordResult s.params c) s := by
  simp [finishStep, hc, hreq, hp]

theorem progressStep_of_pending_nil {s : State} {c : Progress} (hc : s.current = some c) (hreq : s.memReq = none)
    (hp : c.pending = []) : progressStep c s = .next (respond (checkWord s.params c.word) (wordResult s.params c) s) := by
  simp [progressStep, hreq, hp, finishStep_of_pending_nil hc hreq hp]

/-! ### The transfer of a presented word -/

theorem acceptStep_of_enabled {choice : Nat} {s : State} (h : transferEnabled s = true) :
    acceptStep choice s = { transferred s with current := some (startProgress s.params (chosenWord s choice)) } := by
  simp [acceptStep, h]

/-- A presented word is transferred at an edge with no event as by the event `transact 0` (R120, log entry 18). -/
theorem idleStep_of_enabled {s : State} (h : transferEnabled s = true) : idleStep s = transactStep 0 s := by
  obtain ⟨_, hc, hr, hrst⟩ := transferEnabled_iff.mp h
  exact idleStep_of_free hrst hc hr

/-- The transfer to an array that withholds leaves the word in progress (R129). -/
theorem transactStep_of_enabled_withheld {choice : Nat} {s : State} (he : transferEnabled s = true) (ha : s.memAck = false) :
    transactStep choice s = .next { transferred s with current := some (startProgress s.params (chosenWord s choice)) } := by
  rw [transactStep_of_withheld ha, acceptStep_of_enabled he]

/-- Settles O41: both steps are the transfer, which performs the word or accepts it as mem_ack says. -/
theorem stepRunsTheDecodedCommand : Obligations.StepRunsTheDecodedCommand := by
  intro s rest i henabled hdecode
  have htransact (es : List Event) (ha : s.memAck = true) :
      transactStep 0 { s with schedule := es } = exec i { s with schedule := es, cmdValid := false, cmdEarlier := [] } :=
    (transactStep_of_ack (s := { s with schedule := es }) henabled ha).trans (performWord_of_decode_ok hdecode _)
  have haccept (es : List Event) (ha : s.memAck = false) :
      transactStep 0 { s with schedule := es } = .next { s with
        schedule := es, cmdValid := false, cmdEarlier := [], current := some (startProgress s.params s.cmd) } :=
    transactStep_of_enabled_withheld (s := { s with schedule := es }) henabled ha
  have hidle : step { s with schedule := [] } = transactStep 0 { s with schedule := [] } :=
    idleStep_of_enabled (s := { s with schedule := [] }) henabled
  exact ⟨fun ha => ⟨htransact rest ha, hidle.trans (htransact [] ha)⟩, fun ha => ⟨haccept rest ha, hidle.trans (haccept [] ha)⟩⟩

theorem run_one (s : State) : Host.Core.run Sys2Proof.core 1 s = step s := by
  have hcore : Sys2Proof.core.step s = step s := rfl
  cases h : step s <;> simp only [Host.Core.run, hcore, h] <;> rfl

/-- Settles O42: a reserved word has no slot to access, so that an array that withholds delays its answer by one edge only. -/
theorem stepAnswersReservedWords : Obligations.StepAnswersReservedWords := by
  intro s rest henabled hr
  have hcheck : checkWord s.params s.cmd = .errRsvd := checkWord_of_rsvd hr
  have hne : checkWord s.params s.cmd ≠ .ok := by simp [hcheck]
  refine ⟨fun ha => ?_, fun ha hreq => ?_⟩
  · have htransact : step { s with schedule := .transact 0 :: rest } = performWord s.cmd (transferred { s with schedule := rest }) :=
      transactStep_of_ack (s := { s with schedule := rest }) henabled ha
    rw [htransact, performWord_of_decode_error (decode_of_cmdRsvd_ne_zero hr), raiseStatus_of_ne_ok (by decide)]
    rfl
  · obtain ⟨_, _, _, hrst⟩ := transferEnabled_iff.mp henabled
    have haccept : step { s with schedule := [.transact 0] } = .next (acceptedState { s with schedule := [] }) :=
      transactStep_of_enabled_withheld (s := { s with schedule := [] }) henabled ha
    have hfinish : step (acceptedState { s with schedule := [] }) =
        .next (respond (checkWord s.params s.cmd) (wordResult s.params (startProgress s.params s.cmd)) (acceptedState { s with schedule := [] })) :=
      (idleStep_of_current (s := acceptedState { s with schedule := [] }) hrst rfl).trans
        (progressStep_of_pending_nil rfl hreq (windowOf_of_ne_ok hne))
    rw [run_succ_next haccept, run_one, hfinish, wordResult_of_checkWord_ne_ok hne, hcheck]
    rfl

/-- The state in which the caller has shown `w`, and then `w'` in its place (R126). -/
def shownBoth (s : State) (w w' : Cmd) : State :=
  { s with cmdValid := true, cmd := w', cmdEarlier := if w = w' then [] else [w] }

theorem chosenWord_shownBoth_one (s : State) (w w' : Cmd) : chosenWord (shownBoth s w w') 1 = w := by
  by_cases hw : w = w' <;> simp [shownBoth, chosenWord, hw]

theorem transferred_shownBoth {s : State} (w w' : Cmd) (hv : s.cmdValid = false) (he : s.cmdEarlier = []) :
    transferred (shownBoth s w w') = { s with cmd := w' } := by
  rw [transferred]
  simp only [shownBoth, ← hv, ← he]

/-- Presenting the two words on a port that shows none, and then the transfer. -/
theorem run_present_present_transact {s : State} (w w' : Cmd) (choice : Nat) (rest : List Event) (hv : s.cmdValid = false)
    (he : s.cmdEarlier = []) :
    Host.Core.run Sys2Proof.core 3 { s with schedule := .present w :: .present w' :: .transact choice :: rest } =
      transactStep choice (shownBoth { s with schedule := rest } w w') := by
  have h1 : step { s with schedule := .present w :: .present w' :: .transact choice :: rest } =
      .next { s with cmdValid := true, cmd := w, schedule := .present w' :: .transact choice :: rest } := by
    simp [step, runEvent, presentStep, hv]
  have h2 : step { s with cmdValid := true, cmd := w, schedule := .present w' :: .transact choice :: rest } =
      .next (shownBoth { s with schedule := .transact choice :: rest } w w') := by
    by_cases hw : w = w' <;> simp [step, runEvent, presentStep, shownBoth, he, hw]
  rw [run_succ_next h1, run_succ_next h2, run_one]
  rfl

/-- Settles O46: choice 0 is the word on the port, and choice 1 the one before it, or the only one if the two are the same. -/
theorem eitherWordMayBeAccepted : Obligations.EitherWordMayBeAccepted := by
  intro s w w' rest hready hv he
  have henabled : transferEnabled (shownBoth { s with schedule := rest } w w') = true :=
    transferEnabled_iff.mpr ⟨rfl, cmdReady_iff.mp hready⟩
  have hrun := fun choice => run_present_present_transact w w' choice rest hv he
  have hold := chosenWord_shownBoth_one { s with schedule := rest } w w'
  have htransferred := transferred_shownBoth (s := { s with schedule := rest }) w w' hv he
  refine ⟨fun ha => ⟨?_, ?_⟩, fun ha => ⟨?_, ?_⟩⟩
  · rw [hrun, transactStep_of_ack henabled ha, htransferred]
    rfl
  · rw [hrun, transactStep_of_ack henabled ha, htransferred, hold]
  · rw [hrun, transactStep_of_enabled_withheld henabled ha, htransferred]
    rfl
  · rw [hrun, transactStep_of_enabled_withheld henabled ha, htransferred, hold]
    rfl

/-! ### The response transfer and reset -/

/-- Settles O45: the response, if there is one, is what `take` hands over and `sample` shows. -/
theorem responseTransfer : Obligations.ResponseTransfer := by
  intro s rest
  refine ⟨fun r hr => ⟨?_, ?_, fun hc hrst => ?_⟩, fun hr => ⟨?_, ?_⟩⟩
  · exact congrArg _ (takeStep_of_some (s := { s with schedule := rest }) hr)
  · exact sampleStep_of_some (s := { s with schedule := rest }) hr
  · exact idleStep_of_held (s := { s with schedule := [] }) hrst hc hr
  · exact congrArg _ (takeStep_of_none (s := { s with schedule := rest }) hr)
  · exact sampleStep_of_none (s := { s with schedule := rest }) hr

/-- Settles O44: `resetStep` clears the three and nothing else, and ready is rst = 0 with nothing in progress or held. -/
theorem resetClearsTheInterface : Obligations.ResetClearsTheInterface := by
  refine ⟨fun s rest => ⟨resetStep { s with schedule := rest }, rfl, rfl, rfl, rfl, rfl, rfl, rfl, rfl, rfl, rfl, ?_⟩, fun s hrst => ?_⟩
  · exact ⟨_, rfl, rfl, rfl⟩
  · rw [Bool.eq_false_iff, ne_eq, cmdReady_iff, hrst]
    simp

/-- Settles O36: the state after reset, read off. -/
theorem resetLeavesTheBlockReady : Obligations.ResetLeavesTheBlockReady := ⟨rfl, rfl, rfl, rfl, rfl⟩

end Sys2Proof.Machine
end

section
/-! SUPPORT. Runs with no event left: the three hangs, and the edges after which an array that acknowledges and a caller that takes
responses bring the block to rest (70_reset_and_hazards.md R127, R129, R130). -/

namespace Sys2Proof.Machine

/-- At an edge with no event a command in progress makes its own move (R31). -/
theorem step_of_current {s : State} {c : Progress} (hinv : s.Inv) (hs : s.schedule = []) (hc : s.current = some c) :
    step s = progressStep c s := by
  rw [step_of_nil hs, idleStep_of_current (hinv.rst_of_current hc) hc]

/-- In a hang nothing moves (R130). -/
theorem step_of_hangs {s : State} (hinv : s.Inv) (hs : s.schedule = []) (h : s.Hangs) : step s = .next s := by
  rcases h with hrst | ⟨hreq, hack⟩ | ⟨hresp, hready⟩
  · rw [step_of_nil hs, idleStep_of_rst hrst]
  · obtain ⟨c, _, hc, _⟩ := ackStep_of_memReq hinv hreq
    rw [step_of_current hinv hs hc, progressStep_of_memReq c hreq, hack]
    rfl
  · obtain ⟨r, hr⟩ := Option.ne_none_iff_exists'.mp hresp
    rw [step_of_nil hs]
    cases hrst : s.rst with
    | true => exact idleStep_of_rst hrst
    | false => rw [idleStep_of_held hrst (hinv.exclusive.resolve_right hresp) hr, hready]; rfl

/-- With no command, no response and no word there is nothing to do. -/
theorem step_of_nothing {s : State} (hs : s.schedule = []) (hc : s.current = none) (hresp : s.resp = none) (hv : s.cmdValid = false) :
    step s = .next s := by
  rw [step_of_nil hs]
  cases hrst : s.rst with
  | true => exact idleStep_of_rst hrst
  | false =>
    rw [idleStep_of_free hrst hc hresp]
    exact transactStep_of_not_enabled (by simp [transferEnabled, hv])

/-- After a transfer the word is no longer presented (R29). -/
theorem cmdValid_of_transactStep {choice : Nat} {s t : State} (he : transferEnabled s = true) (h : transactStep choice s = .next t) :
    t.cmdValid = false := by
  rcases transactStep_cases h with ⟨_, _, rfl⟩ | rfl
  · rfl
  · rw [acceptStep_of_enabled he]
    rfl

/-- With an array that acknowledges, or no request up, a command in progress moves: a request rises or falls, or the command ends. -/
theorem progressStep_ne_self {s : State} (hinv : s.Inv) {c : Progress} (hc : s.current = some c)
    (h : s.memReq = none ∨ s.memAck = true) : progressStep c s ≠ .next s := by
  intro hself
  by_cases hreq : s.memReq = none
  · cases hp : c.pending with
    | nil =>
      rw [progressStep_of_pending_nil hc hreq hp] at hself
      cases (congrArg State.current (Host.Outcome.next.inj hself)).trans hc
    | cons k ks =>
      rw [progressStep_of_pending hc hreq hp] at hself
      cases (congrArg State.memReq (Host.Outcome.next.inj hself)).trans hreq
  · obtain ⟨_, _, _, _, _, _, hack⟩ := ackStep_of_memReq hinv hreq
    rw [progressStep_of_memReq c hreq, if_pos (h.resolve_left hreq), hack] at hself
    exact hreq (congrArg State.memReq (Host.Outcome.next.inj hself)).symm

/-- Out of the hangs, a block with something to do moves (R130). -/
theorem hangs_or_nothing_of_step_self {s : State} (hinv : s.Inv) (hs : s.schedule = []) (h : step s = .next s) :
    s.Hangs ∨ (s.current = none ∧ s.resp = none ∧ s.cmdValid = false) := by
  rw [step_of_nil hs] at h
  cases hrst : s.rst with
  | true => exact .inl (.inl hrst)
  | false =>
    rcases hc : s.current with _ | c
    · rcases hr : s.resp with _ | r
      · refine .inr ⟨rfl, rfl, ?_⟩
        by_contra hv
        have henabled : transferEnabled s = true := transferEnabled_iff.mpr ⟨by simpa using hv, hc, hr, hrst⟩
        rw [idleStep_of_enabled henabled] at h
        exact hv (cmdValid_of_transactStep henabled h)
      · refine .inl (.inr (.inr ⟨by simp [hr], ?_⟩))
        by_contra hready
        rw [idleStep_of_held hrst hc hr, if_pos (by simpa using hready)] at h
        cases (congrArg State.resp (Host.Outcome.next.inj h)).trans hr
    · rw [idleStep_of_current hrst hc] at h
      have hwait : ¬ (s.memReq = none ∨ s.memAck = true) := fun hmove => progressStep_ne_self hinv hc hmove h
      rw [not_or] at hwait
      exact .inl (.inr (.inl ⟨hwait.1, by simpa using hwait.2⟩))

/-- A state that a step leaves as it is, any number of steps leaves as it is. -/
theorem run_of_step_self {s : State} (h : step s = .next s) (n : Nat) : Host.Core.run Sys2Proof.core n s = .next s := by
  induction n with
  | zero => rfl
  | succ n ih => rw [run_succ_next h, ih]

/-- Settles O49: the fixed points of the edge with no event are the hangs and idleness. -/
theorem hangIsNotAFault : Obligations.HangIsNotAFault := by
  refine ⟨fun n s hinv hs h => run_of_step_self (step_of_hangs hinv hs h) n, fun s hinv hs => ⟨hangs_or_nothing_of_step_self hinv hs, ?_⟩⟩
  rintro (h | ⟨hc, hresp, hv⟩)
  · exact step_of_hangs hinv hs h
  · exact step_of_nothing hs hc hresp hv

/-! ### What holds along a run -/

theorem run_succ_eq_next {n : Nat} {s t : State} (h : Host.Core.run Sys2Proof.core (n + 1) s = .next t) :
    ∃ u, step s = .next u ∧ Host.Core.run Sys2Proof.core n u = .next t := by
  cases hst : step s with
  | next u => exact ⟨u, rfl, run_succ_next hst n ▸ h⟩
  | fault f =>
    have hcore : Sys2Proof.core.step s = .fault f := hst
    simp [Host.Core.run, hcore] at h
  | refused r =>
    have hcore : Sys2Proof.core.step s = .refused r := hst
    simp [Host.Core.run, hcore] at h

theorem run_inv {n : Nat} {s t : State} (hinv : s.Inv) (h : Host.Core.run Sys2Proof.core n s = .next t) : t.Inv := by
  induction n generalizing s with
  | zero =>
    cases h
    exact hinv
  | succ n ih =>
    obtain ⟨u, hstep, hrun⟩ := run_succ_eq_next h
    exact ih (stepKeepsTheInvariant s u hinv hstep) hrun

theorem step_schedule {s t : State} (h : step s = .next t) : t.schedule = s.schedule.tail := by
  obtain ⟨e, hchange, _⟩ := change_of_step h
  cases hchange <;> rfl

/-- A schedule is finite: after as many steps as it has events none is left (R129). -/
theorem run_schedule_length {n : Nat} {s t : State} (hn : s.schedule.length = n) (h : Host.Core.run Sys2Proof.core n s = .next t) :
    t.schedule = [] := by
  induction n generalizing s with
  | zero =>
    cases h
    exact List.length_eq_zero_iff.mp hn
  | succ n ih =>
    obtain ⟨u, hstep, hrun⟩ := run_succ_eq_next h
    refine ih ?_ hrun
    rw [step_schedule hstep, List.length_tail, hn, Nat.add_sub_cancel]

/-! ### The response of a command in progress -/

/-- A command owes at most one access for each slot of its window. -/
theorem length_pending_le {P : Params} {c : Progress} (h : c.Inv P) : c.pending.length ≤ (cmdNbits c.word).toNat := by
  rw [← length_window (cmdPin c.word).toNat (cmdNbits c.word).toNat]
  exact (List.subperm_of_subset h.once h.inWindow).length_le

/-- At an edge with no event an array that acknowledges performs the access that is requested (R29). -/
theorem step_ack_edge {s : State} (hinv : s.Inv) (hs : s.schedule = []) (hack : s.memAck = true) {c : Progress}
    (hc : s.current = some c) {k : Nat} (hk : k ∈ c.pending) (hreq : s.memReq = some (requestFor c.word k)) :
    step s = .next { s with
      array := accessArray c.word s.array k
      current := some (accessed c k (accessByte c.word s.array k))
      memReq := none } := by
  have hlt := lt_arrayLen_of_mem_pending (hinv.progress c hc) hk
  rw [step_of_current hinv hs hc, progressStep_of_memReq c (by simp [hreq]), if_pos hack,
    ackStep_request hinv.admissible hc hlt hreq]

/-- Two edges for each slot still owed and one more, and the command has responded (R127). -/
theorem run_edges_respond {s : State} {c : Progress} {ks : List Nat} (hinv : s.Inv) (hs : s.schedule = []) (hack : s.memAck = true)
    (hc : s.current = some c) (hreq : s.memReq = none) (hp : c.pending = ks) :
    Host.Core.run Sys2Proof.core (2 * ks.length + 1) s =
      .next (respond (checkWord s.params c.word) (wordResult s.params (accessedAll c s.array ks))
        { s with array := accessAll c.word s.array ks }) := by
  induction ks generalizing s c with
  | nil =>
    rw [List.length_nil, run_one, step_of_current hinv hs hc, progressStep_of_pending_nil hc hreq hp]
    rfl
  | cons k ks ih =>
    have hrequest := (step_of_current hinv hs hc).trans (progressStep_of_pending hc hreq hp)
    have hinv1 := stepKeepsTheInvariant s _ hinv hrequest
    have haccess := step_ack_edge (s := { s with memReq := some (requestFor c.word k) }) hinv1 hs hack hc (by simp [hp]) rfl
    have hinv2 := stepKeepsTheInvariant _ _ hinv1 haccess
    have hrest : (accessed c k (accessByte c.word s.array k)).pending = ks := by rw [accessed, hp, List.erase_cons_head]
    have htail := ih hinv2 hs hack rfl rfl hrest
    rw [show 2 * (k :: ks).length + 1 = 2 * ks.length + 1 + 1 + 1 by rw [List.length_cons]; omega, run_succ_next hrequest,
      run_succ_next haccess, htail]
    rfl

/-- A command in progress, whether or not it has a request up, responds within the bound of R127. -/
theorem exists_run_responds {s : State} {c : Progress} (hinv : s.Inv) (hs : s.schedule = []) (hack : s.memAck = true)
    (hc : s.current = some c) :
    ∃ m v a, m ≤ 2 * c.pending.length + 1 ∧
      Host.Core.run Sys2Proof.core m s = .next (respond (checkWord s.params c.word) v { s with array := a }) := by
  by_cases hreq : s.memReq = none
  · exact ⟨_, _, _, le_rfl, run_edges_respond hinv hs hack hc hreq rfl⟩
  · obtain ⟨d, k, hd, hk, hr, _, _⟩ := ackStep_of_memReq hinv hreq
    cases hc.symm.trans hd
    have haccess := step_ack_edge hinv hs hack hc hk hr
    have hinv' := stepKeepsTheInvariant _ _ hinv haccess
    have htail := run_edges_respond hinv' hs hack rfl rfl rfl
    refine ⟨_, _, _, ?_, (run_succ_next haccess _).trans htail⟩
    have := List.length_erase_add_one hk
    simp only [accessed]
    omega

/-- A held response is handed over at an edge with no event (R29). -/
theorem step_take_edge {s : State} {r : Response} (hs : s.schedule = []) (hrst : s.rst = false) (hready : s.respReady = true)
    (hc : s.current = none) (hr : s.resp = some r) : step s = .next { s with resp := none, taken := s.taken ++ [r] } := by
  rw [step_of_nil hs, idleStep_of_held hrst hc hr, if_pos hready]

/-- Settles O50: once the schedule is over, the command takes an edge for each request and each access, and one to respond. -/
theorem fairRunResponds : Obligations.FairRunResponds := by
  intro s t c hinv hrun hc hack
  have hinvt := run_inv hinv hrun
  have hst := run_schedule_length rfl hrun
  obtain ⟨m, v, a, hm, hresp⟩ := exists_run_responds hinvt hst hack hc
  have hlen := length_pending_le (hinvt.progress c hc)
  have hresp' := (run_add hrun m).trans hresp
  refine ⟨m, _, _, by omega, hresp', rfl, rfl, rfl, rfl, rfl, fun hready => ?_⟩
  rw [run_add hresp', run_one]
  exact step_take_edge hst (hinvt.rst_of_current hc) hready rfl rfl

/-! ### The block at rest -/

/-- After at most `n` steps the block is at rest: nothing in progress, held, presented or requested, and it stays so. -/
def RestsWithin (n : Nat) (s : State) : Prop :=
  ∃ m t, m ≤ n ∧ Host.Core.run Sys2Proof.core m s = .next t ∧ t.current = none ∧ t.resp = none ∧ t.cmdValid = false ∧
    t.memReq = none ∧ step t = .next t

theorem RestsWithin.of_run {k n : Nat} {s t : State} (h : RestsWithin n t) (hrun : Host.Core.run Sys2Proof.core k s = .next t) :
    RestsWithin (k + n) s := by
  obtain ⟨m, u, hm, hu, hrest⟩ := h
  exact ⟨k + m, u, by omega, (run_add hrun m).trans hu, hrest⟩

theorem RestsWithin.of_step {n : Nat} {s t : State} (h : RestsWithin n t) (hstep : step s = .next t) : RestsWithin (n + 1) s := by
  rw [Nat.add_comm]
  exact h.of_run ((run_one s).trans hstep)

theorem RestsWithin.mono {m n : Nat} {s : State} (h : RestsWithin m s) (hmn : m ≤ n) : RestsWithin n s := by
  obtain ⟨k, t, hk, hrest⟩ := h
  exact ⟨k, t, hk.trans hmn, hrest⟩

theorem restsWithin_of_nothing {s : State} (hinv : s.Inv) (hs : s.schedule = []) (hc : s.current = none) (hresp : s.resp = none)
    (hv : s.cmdValid = false) : RestsWithin 0 s :=
  ⟨0, s, le_rfl, rfl, hc, hresp, hv, hinv.memReq_of_current hc, step_of_nothing hs hc hresp hv⟩

/-- A held response is taken (R129). -/
theorem restsWithin_of_held {s : State} {r : Response} (hinv : s.Inv) (hs : s.schedule = []) (hfair : s.Fair) (hc : s.current = none)
    (hr : s.resp = some r) {n : Nat} (h : { s with resp := none, taken := s.taken ++ [r] }.Inv →
      RestsWithin n { s with resp := none, taken := s.taken ++ [r] }) : RestsWithin (n + 1) s := by
  have htake := step_take_edge hs hfair.runs hfair.takes hc hr
  exact (h (stepKeepsTheInvariant _ _ hinv htake)).of_step htake

/-- A ready block performs the word presented to it, if there is one, and its response is taken. -/
theorem restsWithin_of_free {s : State} (hinv : s.Inv) (hs : s.schedule = []) (hfair : s.Fair) (hc : s.current = none)
    (hresp : s.resp = none) : RestsWithin 2 s := by
  cases hv : s.cmdValid with
  | false => exact (restsWithin_of_nothing hinv hs hc hresp hv).mono (by omega)
  | true =>
    have henabled : transferEnabled s = true := transferEnabled_iff.mpr ⟨hv, hc, hresp, hfair.runs⟩
    have hperform : step s = performWord s.cmd (transferred s) := by
      rw [step_of_nil hs, idleStep_of_enabled henabled, transactStep_of_ack henabled hfair.acks]
      rfl
    rw [performWord_eq] at hperform
    refine RestsWithin.of_step ?_ hperform
    exact restsWithin_of_held (stepKeepsTheInvariant _ _ hinv hperform) hs ⟨hfair.acks, hfair.takes, hfair.runs⟩ rfl rfl fun hinv' =>
      restsWithin_of_nothing hinv' hs rfl rfl rfl

/-- With no command in progress, a response that is held is taken first. -/
theorem restsWithin_of_not_busy {s : State} (hinv : s.Inv) (hs : s.schedule = []) (hfair : s.Fair) (hc : s.current = none) :
    RestsWithin 3 s := by
  cases hr : s.resp with
  | none => exact (restsWithin_of_free hinv hs hfair hc hr).mono (by omega)
  | some r =>
    exact restsWithin_of_held hinv hs hfair hc hr fun hinv' =>
      restsWithin_of_free hinv' hs ⟨hfair.acks, hfair.takes, hfair.runs⟩ hc rfl

/-- A command that owes accesses is of a legal width, and so owes at most 32 (R6, R58). -/
theorem length_pending_le_32 {P : Params} (hP : P.Admissible) {c : Progress} (h : c.Inv P) : c.pending.length ≤ 32 := by
  by_cases hok : checkWord P c.word = .ok
  · obtain ⟨_, ⟨_, hn⟩, _⟩ := checkWord_eq_ok.mp hok
    exact (length_pending_le h).trans (hn.trans hP.2.1)
  · simp [h.checked hok]

/-- Settles O51: at most 65 edges end the command in progress, and three the rest. -/
theorem fairRunEnds : Obligations.FairRunEnds := by
  intro s hinv hs hfair
  change RestsWithin 68 s
  cases hc : s.current with
  | none => exact (restsWithin_of_not_busy hinv hs hfair hc).mono (by omega)
  | some c =>
    obtain ⟨m, v, a, hm, hrun⟩ := exists_run_responds hinv hs hfair.acks hc
    have hlen := length_pending_le_32 hinv.admissible (hinv.progress c hc)
    have hrest := restsWithin_of_not_busy (run_inv hinv hrun) hs ⟨hfair.acks, hfair.takes, hfair.runs⟩ rfl
    exact (hrest.of_run hrun).mono (by omega)

end Sys2Proof.Machine
end

section
/-! SUPPORT. A command taken access by access: in any order of its slots, with another agent in between, and abandoned by reset
(20_memory.md R45-R53; 70_reset_and_hazards.md R118, R127). -/

namespace Sys2Proof.Machine

theorem encodedSlot_eq (w : Cmd) (k : Nat) : encodedSlot w k = 0x00#8 ∨ encodedSlot w k = 0xFF#8 := by
  unfold encodedSlot slotByte
  split
  · exact .inr rfl
  · exact .inl rfl

/-- The slots of a word that passes its checks (R40, R47). -/
theorem mem_windowOf_of_ok {P : Params} {w : Cmd} (h : checkWord P w = .ok) {k : Nat} :
    k ∈ windowOf P w ↔ (cmdPin w).toNat ≤ k ∧ k < (cmdPin w).toNat + (cmdNbits w).toNat := by
  rw [windowOf_of_ok h, mem_window]

theorem windowOf_nodup (P : Params) (w : Cmd) : (windowOf P w).Nodup := (startProgress_inv P w).once

theorem requestStep_of_mem {s : State} {c : Progress} {k : Nat} (hc : s.current = some c) (hreq : s.memReq = none) (hk : k ∈ c.pending) :
    requestStep k s = { s with memReq := some (requestFor c.word k) } := by simp [requestStep, hc, hreq, hk]

theorem requestStep_of_not_mem {s : State} {c : Progress} {k : Nat} (hc : s.current = some c) (hk : k ∉ c.pending) :
    requestStep k s = s := by
  cases hreq : s.memReq <;> simp [requestStep, hc, hreq, hk]

/-- Settles O53: a request is raised for owed slots only, and its acknowledgement performs that access and strikes the slot off. -/
theorem eachWindowSlotIsAccessedOnce : Obligations.EachWindowSlotIsAccessedOnce := by
  refine ⟨fun P w => ⟨windowOf_of_ne_ok, fun hok => ⟨?_, windowOf_nodup P w, fun k => mem_windowOf_of_ok hok⟩⟩,
    fun s c k rest hinv hc hreq => ⟨fun hk => ?_, fun hk => ?_⟩⟩
  · rw [windowOf_of_ok hok, length_window]
  · exact congrArg _ (requestStep_of_not_mem (s := { s with schedule := rest }) hc hk)
  · have hcinv := hinv.progress c hc
    have hrequest := requestStep_of_mem (s := { s with schedule := .ack :: rest }) hc hreq hk
    have hack := ackStep_request (s := { s with memReq := some (requestFor c.word k), schedule := rest }) hinv.admissible hc
      (lt_arrayLen_of_mem_pending hcinv hk) rfl
    exact ⟨_, _, _, congrArg _ hrequest, rfl, encodedSlot_eq c.word k, hack, rfl, rfl, rfl, rfl, hcinv.once.not_mem_erase,
      memRead_accessArray c.word s.array k⟩

/-! ### The end of a command whose accesses are over -/

/-- The event `finish` of a command that owes nothing (R31). -/
theorem run_finish {s : State} {c : Progress} {rest : List Event} (hs : s.schedule = .finish :: rest) (hc : s.current = some c)
    (hreq : s.memReq = none) (hp : c.pending = []) :
    Host.Core.run Sys2Proof.core 1 s =
      .next (respond (checkWord s.params c.word) (wordResult s.params c) { s with schedule := rest }) := by
  have hstep : step s = .next (finishStep { s with schedule := rest }) := by simp [step, hs, runEvent]
  rw [run_one, hstep, finishStep_of_pending_nil (s := { s with schedule := rest }) hc hreq hp]
  rfl

/-- Once each slot that was owed has been accessed, in whatever order, none is owed. -/
theorem diff_eq_nil_of_perm {l ks : List Nat} (h : ks.Perm l) : l.diff ks = [] :=
  have hsplit := (List.subperm_append_diff_self_of_count_le fun x _ => (h.count_eq x).le).trans h.symm
  List.eq_nil_of_length_eq_zero (by simpa using hsplit.length_eq)

/-- Settles O52: two events for each slot owed, and `finish`. -/
theorem acknowledgedCommandResponds : Obligations.AcknowledgedCommandResponds := by
  intro s c rest hinv hc hreq
  have hcinv := hinv.progress c hc
  have hdone : (accessedAll c s.array c.pending).pending = [] := by
    rw [accessedAll_pending, diff_eq_nil_of_perm (List.Perm.refl _)]
  have haccess := run_accessEvents (rest := .finish :: rest) 1 hinv.admissible hc hreq hcinv.once (fun k hk => hk)
    fun k hk => lt_arrayLen_of_mem_pending hcinv hk
  have hrun := haccess.trans (run_finish rfl rfl hreq hdone)
  rw [accessedAll_word] at hrun
  exact ⟨_, hrun, rfl, rfl, length_pending_le hcinv⟩

/-! ### The sum of a decoder, in any order -/

/-- What the slot `k` of the window of `w` adds to the sum when it reads as `b` (R92). -/
def slotTerm (w : Cmd) (k : Nat) (b : Byte) : Nat :=
  if truthy b then slotWeight (cmdPin w).toNat (cmdNbits w).toNat k else 0

/-- The window's value is the sum of its slots' terms, in any order (R51, R92). -/
theorem windowValue_eq_sum_of_perm {P : Params} {w : Cmd} (hok : checkWord P w = .ok) {ks : List Nat} (h : ks.Perm (windowOf P w))
    (f : Nat → Byte) :
    (ks.map fun k => slotTerm w k (f k)).sum = windowValue (cmdPin w).toNat (cmdNbits w).toNat f := by
  rw [(h.map _).sum_eq, windowOf_of_ok hok, window, List.range'_eq_map_range, List.map_map, windowValue]
  simp only [Function.comp_def, slotTerm, slotWeight_add]

/-- RESULT once the sum is the value of the window of `f` (R92, R94). -/
theorem wordResult_of_acc {P : Params} {c : Progress} {f : Nat → Byte}
    (h : checkWord P c.word = .ok → cmdEncodes c.word = false → c.acc = windowValue (cmdPin c.word).toNat (cmdNbits c.word).toNat f) :
    wordResult P c = if checkWord P c.word = .ok ∧ cmdEncodes c.word = false then decodedResult c.word f else 0#32 := by
  unfold wordResult
  split
  next hd => rw [h hd.1 hd.2, decodedResult]
  next => rfl

/-- A decoder's sum after accesses to the slots `ks` (R92). -/
theorem accessedAll_acc_decoder {c : Progress} (he : cmdEncodes c.word = false) (m : Memory) (ks : List Nat) :
    (accessedAll c m ks).acc = c.acc + (ks.map fun k => slotTerm c.word k (memRead m k)).sum := by
  rw [accessedAll_acc, he]
  rfl

/-! ### With nobody in between -/

theorem arrayInv_accessAll {P : Params} {m : Memory} (h : ArrayInv P m) (w : Cmd) {ks : List Nat} (hlt : ∀ k ∈ ks, k < P.arrayLen) :
    ArrayInv P (accessAll w m ks) := by
  induction ks generalizing m with
  | nil => exact h
  | cons k ks ih => exact ih (arrayInv_accessArray h (hlt k (by simp)) w) fun j hj => hlt j (by simp [hj])

/-- The accesses of the whole window, in any order, leave the array of the command done as one step (R51). -/
theorem accessAll_eq_wordArray {P : Params} {w : Cmd} {m : Memory} (hm : ArrayInv P m) {ks : List Nat} (h : ks.Perm (windowOf P w)) :
    accessAll w m ks = wordArray P w m := by
  have hks := arrayInv_accessAll hm w fun k hk => windowOf_lt (h.mem_iff.mp hk)
  refine memory_ext hks.1 (arrayInv_wordArray hm w).1 fun k => ?_
  simp only [memRead_accessAll, memRead_wordArray, h.mem_iff]

/-- The reads of the whole window, in any order, give the RESULT of the command done as one step (R51). -/
theorem wordResult_accessedAll {P : Params} {w : Cmd} (m : Memory) {ks : List Nat} (h : ks.Perm (windowOf P w)) :
    wordResult P (accessedAll (startProgress P w) m ks) = wordValue P w m := by
  have hword : (accessedAll (startProgress P w) m ks).word = w := accessedAll_word _ m ks
  refine (wordResult_of_acc (f := memRead m) fun hok he => ?_).trans (by rw [hword, wordValue])
  rw [hword] at hok he ⊢
  have hacc : (accessedAll (startProgress P w) m ks).acc = 0 + (ks.map fun k => slotTerm w k (memRead m k)).sum :=
    accessedAll_acc_decoder (c := startProgress P w) he m ks
  rw [hacc, Nat.zero_add, windowValue_eq_sum_of_perm hok h]

/-- The state of the command that `s` has accepted when it has got to `c`, the array to `m` and the record of other agents' reads to `o`,
with no request up and the events `es` to come. -/
def inProgress (s : State) (c : Progress) (m : Memory) (o : List Host.Cell) (es : List Event) : State :=
  { transferred s with array := m, otherReads := o, current := some c, schedule := es }

/-- The presented word, accepted, and its accesses to the slots `ks` (R31, R51). -/
theorem run_accept_inProgress {s : State} {ks : List Nat} (n : Nat) (es : List Event) (hinv : s.Inv) (henabled : transferEnabled s = true)
    (hnodup : ks.Nodup) (hks : ∀ k ∈ ks, k ∈ windowOf s.params s.cmd) :
    Host.Core.run Sys2Proof.core (2 * ks.length + n + 1) { s with schedule := .accept 0 :: (accessEvents ks ++ es) } =
      Host.Core.run Sys2Proof.core n
        (inProgress s (accessedAll (startProgress s.params s.cmd) s.array ks) (accessAll s.cmd s.array ks) s.otherReads es) := by
  obtain ⟨_, hc, _⟩ := transferEnabled_iff.mp henabled
  exact run_accept_accessEvents n es hinv.admissible henabled (hinv.memReq_of_current hc) hnodup hks

/-- Accesses to the slots `ls`, still owed (R29, R51). -/
theorem run_access_inProgress {s : State} {c : Progress} {ls : List Nat} (m : Memory) (o : List Host.Cell) (n : Nat) (es : List Event)
    (hinv : s.Inv) (henabled : transferEnabled s = true) (hnodup : ls.Nodup) (hls : ∀ k ∈ ls, k ∈ c.pending)
    (hlt : ∀ k ∈ ls, k < s.params.arrayLen) :
    Host.Core.run Sys2Proof.core (2 * ls.length + n) (inProgress s c m o (accessEvents ls ++ es)) =
      Host.Core.run Sys2Proof.core n (inProgress s (accessedAll c m ls) (accessAll c.word m ls) o es) := by
  obtain ⟨_, hc, _⟩ := transferEnabled_iff.mp henabled
  exact run_accessEvents (s := inProgress s c m o []) n hinv.admissible rfl (hinv.memReq_of_current hc) hnodup hls hlt

/-- The response, once the command owes nothing. -/
theorem run_finish_inProgress {s : State} {c : Progress} (m : Memory) (o : List Host.Cell) (rest : List Event) (hinv : s.Inv)
    (henabled : transferEnabled s = true) (hp : c.pending = []) :
    Host.Core.run Sys2Proof.core 1 (inProgress s c m o (.finish :: rest)) =
      .next (respond (checkWord s.params c.word) (wordResult s.params c)
        { transferred s with array := m, otherReads := o, schedule := rest }) := by
  obtain ⟨_, hc, _⟩ := transferEnabled_iff.mp henabled
  exact run_finish (s := inProgress s c m o (.finish :: rest)) rfl rfl (hinv.memReq_of_current hc) hp

/-- Settles O54: every order of the accesses leaves the array and the sum of the command done as one step, and `finish` its response. -/
theorem anyAccessOrderMatchesOneStep : Obligations.AnyAccessOrderMatchesOneStep := by
  intro s ks rest hinv henabled hperm
  refine ⟨?_, fun hack => transactStep_of_ack (s := { s with schedule := rest }) henabled hack⟩
  have hdone : (accessedAll (startProgress s.params s.cmd) s.array ks).pending = [] := by
    rw [accessedAll_pending]
    exact diff_eq_nil_of_perm hperm
  have hword : (accessedAll (startProgress s.params s.cmd) s.array ks).word = s.cmd := accessedAll_word _ _ _
  rw [run_accept_inProgress 1 (.finish :: rest) hinv henabled (hperm.nodup_iff.mpr (windowOf_nodup _ _)) fun k hk => hperm.mem_iff.mp hk,
    run_finish_inProgress _ _ rest hinv henabled hdone, performWord_eq, accessAll_eq_wordArray hinv.arrayInv hperm,
    wordResult_accessedAll _ hperm, hword]
  rfl

/-! ### Reset in between -/

/-- Settles O55: reset leaves the array as the accesses performed have left it, and takes no response. -/
theorem resetAbandonsTheCommand : Obligations.ResetAbandonsTheCommand := by
  refine ⟨fun s ks rest hinv henabled hnodup hks => ?_, fun s r rest hr => ⟨_, rfl, rfl, rfl, rfl⟩⟩
  have hrun := run_accept_inProgress 1 (.resetHigh :: rest) hinv henabled hnodup hks
  exact ⟨_, hrun.trans (run_one _), rfl, rfl, rfl, rfl, rfl, memRead_accessAll s.cmd s.array ks⟩

/-! ### Another agent in between -/

/-- A command accessed in two parts, `ks` and `ls`, between which the event `e` of another agent turns the array into `m` and the record of
other agents' reads into `o` (R53). -/
theorem run_race {s : State} {ks ls : List Nat} {e : Event} {m : Memory} {o : List Host.Cell} (rest : List Event) (hinv : s.Inv)
    (henabled : transferEnabled s = true) (hperm : (ks ++ ls).Perm (windowOf s.params s.cmd))
    (hevent : ∀ c es, runEvent e (inProgress s c (accessAll s.cmd s.array ks) s.otherReads es) = .next (inProgress s c m o es)) :
    Host.Core.run Sys2Proof.core (2 * ks.length + 2 * ls.length + 3)
        { s with schedule := .accept 0 :: (accessEvents ks ++ e :: (accessEvents ls ++ .finish :: rest)) } =
      .next (respond (checkWord s.params s.cmd)
        (wordResult s.params (accessedAll (accessedAll (startProgress s.params s.cmd) s.array ks) m ls))
        { transferred s with array := accessAll s.cmd m ls, otherReads := o, schedule := rest }) := by
  have hmem (k : Nat) (hk : k ∈ ks ++ ls) : k ∈ windowOf s.params s.cmd := hperm.mem_iff.mp hk
  obtain ⟨hks, hls, hdisjoint⟩ := List.nodup_append.mp (hperm.nodup_iff.mpr (windowOf_nodup s.params s.cmd))
  have hpending : (accessedAll (startProgress s.params s.cmd) s.array ks).pending = (windowOf s.params s.cmd).diff ks :=
    accessedAll_pending _ _ _
  have howed (k : Nat) (hk : k ∈ ls) : k ∈ (accessedAll (startProgress s.params s.cmd) s.array ks).pending := by
    rw [hpending]
    exact List.mem_diff_of_mem (hmem k (by simp [hk])) fun hk' => hdisjoint k hk' k hk rfl
  have hdone : (accessedAll (accessedAll (startProgress s.params s.cmd) s.array ks) m ls).pending = [] := by
    rw [accessedAll_pending, hpending, ← List.diff_append, diff_eq_nil_of_perm hperm]
  have hother (es : List Event) : step (inProgress s (accessedAll (startProgress s.params s.cmd) s.array ks)
      (accessAll s.cmd s.array ks) s.otherReads (e :: es)) = .next (inProgress s _ m o es) := hevent _ es
  rw [show 2 * ks.length + 2 * ls.length + 3 = 2 * ks.length + (2 * ls.length + 1 + 1) + 1 by omega,
    run_accept_inProgress _ _ hinv henabled hks fun k hk => hmem k (by simp [hk]), run_succ_next (hother _),
    run_access_inProgress m o 1 _ hinv henabled hls howed fun k hk => windowOf_lt (hmem k (by simp [hk])),
    run_finish_inProgress _ o rest hinv henabled hdone, accessedAll_word, accessedAll_word]
  rfl

/-- An encoder's RESULT is 0 (R67, R89). -/
theorem wordResult_encoder {P : Params} {c : Progress} (he : cmdEncodes c.word = true) : wordResult P c = 0#32 :=
  if_neg fun h => absurd (h.2.symm.trans he) (by decide)

/-- The write of another agent between the accesses `ks` and `ls` (R53a, R53b). -/
theorem run_race_otherWrite {s : State} {ks ls : List Nat} {k : Nat} (b : Byte) (rest : List Event) (hinv : s.Inv)
    (henabled : transferEnabled s = true) (hk : k < s.params.arrayLen) (hperm : (ks ++ ls).Perm (windowOf s.params s.cmd)) :
    Host.Core.run Sys2Proof.core (2 * ks.length + 2 * ls.length + 3)
        { s with schedule := .accept 0 :: (accessEvents ks ++ .otherWrite k b :: (accessEvents ls ++ .finish :: rest)) } =
      .next (respond (checkWord s.params s.cmd)
        (wordResult s.params (accessedAll (accessedAll (startProgress s.params s.cmd) s.array ks)
          (memWrite (accessAll s.cmd s.array ks) k b) ls))
        { transferred s with
          array := accessAll s.cmd (memWrite (accessAll s.cmd s.array ks) k b) ls
          otherReads := s.otherReads
          schedule := rest }) :=
  run_race rest hinv henabled hperm fun c es =>
    otherWriteStep_of_lt (s := inProgress s c (accessAll s.cmd s.array ks) s.otherReads es) hk b

/-- Settles O57: what comes last at a slot stays, and the encoder's later accesses come after the other agent's write. -/
theorem racingWriteDuringAnEncoder : Obligations.RacingWriteDuringAnEncoder := by
  intro s ks ls k b rest hinv henabled he hok hk hperm
  refine ⟨_, run_race_otherWrite b rest hinv henabled hk hperm, ?_, fun j => ?_⟩
  · rw [respond_resp, hok, wordResult_encoder (by rw [accessedAll_word, accessedAll_word]; exact he)]
  · simp only [respond_array, memRead_accessAll, memRead_memWrite, he, true_and]

/-- Settles O58: the read finds the encoder's byte exactly where the encoder's access has been performed. -/
theorem racingReadDuringAnEncoder : Obligations.RacingReadDuringAnEncoder := by
  intro s ks ls k rest hinv henabled he hok hk hperm
  have hrun := run_race (e := .otherRead k) (m := accessAll s.cmd s.array ks)
    (o := s.otherReads ++ [(k, memRead (accessAll s.cmd s.array ks) k)]) rest hinv henabled hperm fun c es =>
    otherReadStep_of_lt (s := inProgress s c (accessAll s.cmd s.array ks) s.otherReads es) hk
  refine ⟨_, hrun, ?_, ?_⟩
  · rw [respond_resp, hok, wordResult_encoder (by rw [accessedAll_word, accessedAll_word]; exact he)]
  · simp only [respond_otherReads, memRead_accessAll, he, true_and]

/-- What a decoder finds in the slot `j` if another agent writes `b` to the slot `k` before the accesses `ls` (R53a). -/
def racedSlot (m : Memory) (k : Nat) (b : Byte) (ls : List Nat) (j : Nat) : Byte :=
  if j = k ∧ j ∈ ls then b else memRead m j

/-- RESULT of a decoder between whose accesses `ks` and `ls` another agent has written `b` to the slot `k` (R53a). -/
theorem wordResult_of_race {P : Params} {w : Cmd} (m : Memory) {ks ls : List Nat} (k : Nat) (b : Byte) (he : cmdEncodes w = false)
    (hok : checkWord P w = .ok) (hperm : (ks ++ ls).Perm (windowOf P w)) :
    wordResult P (accessedAll (accessedAll (startProgress P w) m ks) (memWrite (accessAll w m ks) k b) ls) =
      decodedResult w (racedSlot m k b ls) := by
  obtain ⟨_, _, hdisjoint⟩ := List.nodup_append.mp (hperm.nodup_iff.mpr (windowOf_nodup P w))
  have hword : (accessedAll (startProgress P w) m ks).word = w := accessedAll_word _ _ _
  have hks : (accessedAll (startProgress P w) m ks).acc = (ks.map fun j => slotTerm w j (racedSlot m k b ls j)).sum := by
    refine (accessedAll_acc_decoder (c := startProgress P w) he m ks).trans ((Nat.zero_add _).trans ?_)
    refine congrArg List.sum (List.map_congr_left fun j hj => ?_)
    rw [racedSlot, if_neg fun h => hdisjoint j hj j h.2 rfl]
    rfl
  have hls : ls.map (fun j => slotTerm w j (memRead (memWrite (accessAll w m ks) k b) j)) =
      ls.map fun j => slotTerm w j (racedSlot m k b ls j) := by
    refine List.map_congr_left fun j hj => ?_
    simp [racedSlot, memRead_memWrite, memRead_accessAll, he, hj]
  have hword' : (accessedAll (accessedAll (startProgress P w) m ks) (memWrite (accessAll w m ks) k b) ls).word = w :=
    (accessedAll_word _ _ _).trans hword
  have hresult := wordResult_of_acc (P := P) (f := racedSlot m k b ls)
    (c := accessedAll (accessedAll (startProgress P w) m ks) (memWrite (accessAll w m ks) k b) ls)
  rw [hword'] at hresult
  rw [hresult fun _ _ => ?_, if_pos ⟨hok, he⟩]
  rw [accessedAll_acc_decoder (hword.symm ▸ he), hword, hks, hls, ← List.sum_append, ← List.map_append,
    windowValue_eq_sum_of_perm hok hperm]

/-- Settles O56: the reads of `ls` find the other agent's byte in slot `k`, those of `ks` the old one. -/
theorem racingWriteDuringADecoder : Obligations.RacingWriteDuringADecoder := by
  intro s ks ls k b rest hinv henabled he hok hk hperm
  refine ⟨_, run_race_otherWrite b rest hinv henabled hk hperm, ?_, fun j => ?_⟩
  · rw [respond_resp, hok, wordResult_of_race s.array k b he hok hperm]
    rfl
  · simp [memRead_accessAll, memRead_memWrite, he]

end Sys2Proof.Machine
end
